-- ==== Sys2Proof/Word.lean ====
section
/-! DEFINITION. The word types: 32-bit registers, bytes, and the four-byte transfer unit. -/

namespace Sys2Proof

/-- A register value: a 32-bit unsigned word (R10). -/
abbrev Word := BitVec 32

/-- One byte of a caller's buffer (R30). -/
abbrev Byte := BitVec 8

/-- The transfer unit: the four bytes moved by one READ or one WRITE, `b0` at the lowest offset of the
caller's buffer (R51). -/
structure TransferUnit where
  b0 : Byte
  b1 : Byte
  b2 : Byte
  b3 : Byte
  deriving DecidableEq, Repr

end Sys2Proof
end

