-- ==== Sys2Proof/Config.lean ====
section
/-! DEFINITION. The implementation parameters of R5 and the free values the spec leaves open. -/

namespace Sys2Proof

/-- BYTE_ORDER, the host's native order of a four-byte transfer (R33, D3). -/
inductive ByteOrder where
  | little
  | big
  deriving DecidableEq, Repr

/-- COUNTER_MODEL: whether `counter` holds between RESETs or may take any value (R95, D4). -/
inductive CounterModel where
  | frozen
  | free
  deriving DecidableEq, Repr

/-- The three error kinds, given by name only (R120). -/
inductive ErrorKind where
  /-- "construction-time resource exhaustion" (R121). -/
  | outOfMemory
  /-- An undersized or unreadable write (R122, R123). -/
  | invalidArgument
  /-- An unwritable read destination (R124). -/
  | accessFault
  deriving DecidableEq, Repr

/-- The parameters of R5 that an operation consults: fixed for the life of the device, no step changes
them (R33). -/
structure Params where
  byteOrder : ByteOrder
  counterModel : CounterModel
  /-- The kind reported by a READ into fewer than four bytes (R82, R125, D6). -/
  shortReadError : ErrorKind
  deriving DecidableEq, Repr

/-- FREE VALUE. What `counter` holds under `COUNTER_MODEL = free` at the given draw: "any 32-bit value,
under no law" (D4; log 6). -/
opaque Config.freeCounter : Nat → Word

/-- FREE VALUE. The byte at an offset of a destination buffer after AccessFault, at the given draw: "the
model must assume nothing about them" (R83, D20; log 7). -/
opaque Config.freeByte : Nat → Nat → Byte

/-- FREE VALUE. Which waiting call's caller gets the lock at the given draw, once the schedule the state
holds is used up (R39, R45, D11; log 2). -/
opaque Config.lockChoice : Nat → Nat

/-- ERR_CODE, the numeric code of each error kind, which the spec leaves open (R60, D8; log 18). -/
opaque Config.errCode : ErrorKind → Int

end Sys2Proof
end

