-- ==== Sys2Proof/Syntax.lean ====
section
/-! DEFINITION. The instructions: one constructor per row of the opcode table. -/

namespace Sys2Proof

/-- The operations of the block as the opcode table lists them (R50, R57). The environment's answers are
operands (R5, D18). An accepted WRITE carries its command word `v` and the bytes of the source buffer at
offsets 4 and above, so that its buffer length is `L = 4 + rest.length` (R54). -/
inductive Instr where
  /-- INIT with the environment's `alloc_ok` (R70, R71). -/
  | init (allocOk : Bool)
  /-- SHUTDOWN (R72). -/
  | shutdown
  /-- OPEN, the open-equivalent notification (R74). -/
  | openSession
  /-- CLOSE, the close-equivalent notification (R75). -/
  | closeSession
  /-- READ into the destination buffer `dst`, so `L = dst.length`, with `dst_writable` (R80 to R83). -/
  | read (dst : List Byte) (dstWritable : Bool)
  /-- WRITE.NOP: accepted WRITE with `v[1:0] = 00` (R97). -/
  | writeNop (v : Word) (rest : List Byte)
  /-- WRITE.ENABLE: accepted WRITE with `v[1:0] = 01` (R98). -/
  | writeEnable (v : Word) (rest : List Byte)
  /-- WRITE.RESET: accepted WRITE with `v[1:0] = 10` (R99). -/
  | writeReset (v : Word) (rest : List Byte)
  /-- WRITE.ENRST: accepted WRITE with `v[1:0] = 11` (R100). -/
  | writeEnrst (v : Word) (rest : List Byte)
  /-- WRITE.REJECT: a WRITE whose source buffer `src` is shorter than four bytes or unreadable (R101). -/
  | writeReject (src : List Byte) (srcReadable : Bool)
  deriving DecidableEq, Repr

end Sys2Proof
end

