-- ==== Sys2Proof/WellFormed.lean ====
section
/-! DEFINITION. Which terms of `Instr` are instructions: the selection conditions of the opcode table. -/

namespace Sys2Proof

/-- The class of an accepted WRITE is the value of `v[1:0]` (R57, mask 0x00000003); a WRITE.REJECT is a WRITE
that fails the input contract, `L < 4` or an unreadable source (R90, R101). The other rows have no condition
on their operands. -/
def Instr.wf : Instr → Bool
  | .init _ => true
  | .shutdown => true
  | .openSession => true
  | .closeSession => true
  | .read _ _ => true
  | .writeNop v _ => v &&& 3#32 == 0#32
  | .writeEnable v _ => v &&& 3#32 == 1#32
  | .writeReset v _ => v &&& 3#32 == 2#32
  | .writeEnrst v _ => v &&& 3#32 == 3#32
  | .writeReject src srcReadable => decide (src.length < 4) || !srcReadable

/-- An instruction's operands meet its row's selection condition. -/
abbrev Instr.WellFormed (i : Instr) : Prop := i.wf = true

end Sys2Proof
end

