-- ==== Sys2Proof/Decode.lean ====
section
/-! DEFINITION. The named bits, byte packing, the request, its decoding to an instruction, and the encoder. -/

namespace Sys2Proof

/-- Control bit 0 (R11, D2). -/
def ENABLE : Word := 0x00000001#32
/-- Control bit 1 (R11, D2). -/
def RESET : Word := 0x00000002#32
/-- Status bit 0 (R12, D2). -/
def READY : Word := 0x00000001#32
/-- Status bit 1 (R12, D2). -/
def BUSY : Word := 0x00000002#32
/-- Status bit 2 (R12, D2): representable, set by no operation. -/
def ERROR : Word := 0x00000004#32

/-- `word(b0,b1,b2,b3)` under BYTE_ORDER (R51). -/
def wordOf (o : ByteOrder) (u : TransferUnit) : Word :=
  match o with
  | .little =>
    u.b0.setWidth 32 ||| u.b1.setWidth 32 <<< 8 ||| u.b2.setWidth 32 <<< 16 ||| u.b3.setWidth 32 <<< 24
  | .big =>
    u.b0.setWidth 32 <<< 24 ||| u.b1.setWidth 32 <<< 16 ||| u.b2.setWidth 32 <<< 8 ||| u.b3.setWidth 32

/-- `bytes(v)` under BYTE_ORDER (R51). -/
def bytesOf (o : ByteOrder) (v : Word) : TransferUnit :=
  match o with
  | .little => ⟨v.extractLsb' 0 8, v.extractLsb' 8 8, v.extractLsb' 16 8, v.extractLsb' 24 8⟩
  | .big => ⟨v.extractLsb' 24 8, v.extractLsb' 16 8, v.extractLsb' 8 8, v.extractLsb' 0 8⟩

/-- The unit's bytes, lowest offset first (R51). -/
def TransferUnit.toList (u : TransferUnit) : List Byte := [u.b0, u.b1, u.b2, u.b3]

/-- One call of the transport contract: the six request kinds of R50 with their inputs. A READ hands over its
destination buffer as it stands and a WRITE its source buffer, so that `L` is the buffer's length. -/
inductive Request where
  | init (allocOk : Bool)
  | shutdown
  | openSession
  | closeSession
  | read (dst : List Byte) (dstWritable : Bool)
  | write (src : List Byte) (srcReadable : Bool)
  deriving DecidableEq, Repr

/-- What the system asks for: INIT and SHUTDOWN, the operations of the environment (R135). -/
inductive SystemRequest where
  | init (allocOk : Bool)
  | shutdown
  deriving DecidableEq, Repr

/-- What a client asks for: the other four kinds. INIT and SHUTDOWN are issued "not by clients" (R135). -/
inductive ClientRequest where
  | openSession
  | closeSession
  | read (dst : List Byte) (dstWritable : Bool)
  | write (src : List Byte) (srcReadable : Bool)
  deriving DecidableEq, Repr

/-- The system's request as one of the six kinds (R50). -/
def SystemRequest.toRequest : SystemRequest → Request
  | .init allocOk => .init allocOk
  | .shutdown => .shutdown

/-- A client's request as one of the six kinds (R50). -/
def ClientRequest.toRequest : ClientRequest → Request
  | .openSession => .openSession
  | .closeSession => .closeSession
  | .read dst dstWritable => .read dst dstWritable
  | .write src srcReadable => .write src srcReadable

/-- Why a request has no instruction. R59 says no command word is illegal, so no request is rejected; that is
a statement about `decode`, not an assumption of its type. -/
inductive DecodeError where
  /-- No CW row of the opcode table matches the command word. -/
  | noCommandRow (v : Word)
  deriving DecidableEq, Repr

/-- The four classes of an accepted WRITE (R57). -/
inductive CommandClass where
  | nop
  | enable
  | reset
  | enrst
  deriving DecidableEq, Repr

/-- A CW row of the opcode table: `v` belongs to the class when `v & mask = pattern`. -/
structure CommandRow where
  mask : Word
  pattern : Word
  cls : CommandClass
  deriving DecidableEq, Repr

/-- The CW rows of the opcode table, mask and match as it has them (R57). -/
def commandRows : List CommandRow :=
  [⟨0x00000003#32, 0x00000000#32, .nop⟩,
   ⟨0x00000003#32, 0x00000001#32, .enable⟩,
   ⟨0x00000003#32, 0x00000002#32, .reset⟩,
   ⟨0x00000003#32, 0x00000003#32, .enrst⟩]

/-- A row matches a command word. -/
def CommandRow.matchesWord (row : CommandRow) (v : Word) : Bool := v &&& row.mask == row.pattern

/-- The class whose row matches the command word (R57). -/
def classOf (v : Word) : Option CommandClass :=
  (commandRows.find? (fun row => row.matchesWord v)).map CommandRow.cls

/-- The instruction of an accepted WRITE of the given class. -/
def CommandClass.toInstr (c : CommandClass) (v : Word) (rest : List Byte) : Instr :=
  match c with
  | .nop => .writeNop v rest
  | .enable => .writeEnable v rest
  | .reset => .writeReset v rest
  | .enrst => .writeEnrst v rest

/-- `MemRead(src, 4)`: the transfer unit at source offsets 0 to 3 and the bytes beyond it, if the buffer holds
at least four bytes (R54). -/
def memRead (src : List Byte) : Option (TransferUnit × List Byte) :=
  match src with
  | b0 :: b1 :: b2 :: b3 :: rest => some (⟨b0, b1, b2, b3⟩, rest)
  | _ => none

/-- Decoding of a WRITE request: first the length, then readability (R90, R130), then the CW rows (R57). -/
def decodeWrite (o : ByteOrder) (src : List Byte) (srcReadable : Bool) : Except DecodeError Instr :=
  match memRead src with
  | none => .ok (.writeReject src srcReadable)
  | some (u, rest) =>
    if srcReadable then
      match classOf (wordOf o u) with
      | some c => .ok (c.toInstr (wordOf o u) rest)
      | none => .error (.noCommandRow (wordOf o u))
    else .ok (.writeReject src srcReadable)

/-- The instruction a request stands for: the request kind selects it, and for WRITE `decodeWrite` (R50, R57). -/
def decode (o : ByteOrder) : Request → Except DecodeError Instr
  | .init allocOk => .ok (.init allocOk)
  | .shutdown => .ok .shutdown
  | .openSession => .ok .openSession
  | .closeSession => .ok .closeSession
  | .read dst dstWritable => .ok (.read dst dstWritable)
  | .write src srcReadable => decodeWrite o src srcReadable

/-- A client's WRITE that carries command word `v` and further bytes `rest`, from a readable source: `bytes(v)`
at offsets 0 to 3 (R51, R54, R61). -/
def writeOperation (o : ByteOrder) (v : Word) (rest : List Byte) : ClientRequest :=
  .write ((bytesOf o v).toList ++ rest) true

/-- That WRITE as a request. -/
def writeRequest (o : ByteOrder) (v : Word) (rest : List Byte) : Request := (writeOperation o v rest).toRequest

/-- The request that stands for an instruction (R50, R51, R54). -/
def encode (o : ByteOrder) : Instr → Request
  | .init allocOk => .init allocOk
  | .shutdown => .shutdown
  | .openSession => .openSession
  | .closeSession => .closeSession
  | .read dst dstWritable => .read dst dstWritable
  | .writeNop v rest => writeRequest o v rest
  | .writeEnable v rest => writeRequest o v rest
  | .writeReset v rest => writeRequest o v rest
  | .writeEnrst v rest => writeRequest o v rest
  | .writeReject src srcReadable => .write src srcReadable

/-- The client's request that carries a word of the opcode table: only CW rows have bits, and such a word is the command
word of a WRITE of one transfer unit, laid out under BYTE_ORDER (R50, R52; log 14). A word wider than a transfer
unit is no word of the table. -/
def tableRequest (o : ByteOrder) (nbits w : Nat) : Option ClientRequest :=
  if nbits ≤ 32 ∧ w < 2 ^ 32 then some (writeOperation o (BitVec.ofNat 32 w) []) else none

/-- The instruction the decoder reads from a word of the opcode table. The layout and the decoder use one byte
order, and either gives the same instruction. -/
def decodeTableWord (nbits w : Nat) : Option Instr :=
  match tableRequest .little nbits w with
  | some q => (decode .little q.toRequest).toOption
  | none => none

end Sys2Proof
end

