-- ==== Sys2Proof/Machine/State.lean ====
section
/-! DEFINITION. The machine's state as plain data, its reasons to stop, and the state after reset. -/

namespace Sys2Proof.Machine

/-- The names of the four registers, in the source's order (R10). -/
inductive RegName where
  | control
  | status
  | data
  | counter
  deriving DecidableEq, Repr

/-- The register file: exactly four 32-bit registers (R10). -/
structure RegFile where
  /-- The last command word written (R11). -/
  control : Word
  /-- The device state, a bit field of READY, BUSY, ERROR (R12, D17). -/
  status : Word
  /-- The reserved payload register (R13). -/
  data : Word
  /-- The resettable counter (R14). -/
  counter : Word
  deriving DecidableEq, Repr

/-- The lifecycle state (R16). -/
inductive Life where
  | absent
  | alive
  | dead
  deriving DecidableEq, Repr

/-- The block: its lifecycle state together with the registers, which hold values exactly while it is ALIVE
(R16, R72; log 8). -/
inductive Block where
  /-- Before INIT: the registers hold no value. -/
  | absent
  /-- After a successful INIT and before SHUTDOWN. -/
  | alive (regs : RegFile)
  /-- After a failed INIT or after SHUTDOWN: the registers hold no value. -/
  | dead
  deriving DecidableEq, Repr

/-- Who issues operations and holds the lock: the system, or one of any number of clients (R135, R138). -/
inductive Agent where
  | system
  | client (n : Nat)
  deriving DecidableEq, Repr

/-- An operation that has been issued and has not taken effect yet (R39; log 1). INIT and SHUTDOWN are issued by the
system and not by clients, the other operations by clients, who are all equal (R135; log 19): no other call exists. -/
inductive Call where
  | ofSystem (operation : SystemRequest)
  | ofClient (n : Nat) (operation : ClientRequest)
  deriving DecidableEq, Repr

/-- What an operation answers (R50, R60). -/
inductive Response where
  /-- `Ok` of INIT, SHUTDOWN, OPEN and CLOSE. -/
  | ok
  /-- `Ok(count)` of an accepted WRITE (R102). -/
  | okCount (count : Nat)
  /-- `Ok(count, bytes)` of a successful READ (R80). -/
  | okRead (count : Nat) (bytes : TransferUnit)
  /-- `Err(kind)` (R60, R120). -/
  | err (kind : ErrorKind)
  deriving DecidableEq, Repr

/-- A response as its caller got it: the agent that held the lock (none when `exec` runs outside a step), the
response, and for a READ the destination buffer as it stands afterwards (R55; log 9). -/
structure Reply where
  caller : Option Agent
  response : Response
  buffer : Option (List Byte)
  deriving DecidableEq, Repr

/-- The machine. `block` and `lock` are the spec's state (R10 to R16, R20); the other fields are the model's own:
the parameters (R5), the agents' calls and the environment's lock order (R39), the replies given, and the index
of the next free values (log 1, 2, 5, 6, 9). -/
structure State where
  block : Block
  /-- The exclusive-access lock: free, or held by an agent (R20). -/
  lock : Option Agent
  params : Params
  pending : List Call
  schedule : List Agent
  /-- The replies given so far, newest first. -/
  replies : List Reply
  draws : Nat
  deriving DecidableEq, Repr

/-- Nothing in the block faults or sticks: an error kind is a response and the machine goes on (R126, R128), so
the model has no fault. -/
inductive Fault where
  deriving DecidableEq, Repr

/-- Requests the model gives no meaning. -/
inductive Refusal where
  /-- Raised by an arm of `exec` whose instruction has no meaning yet; no arm does so. Safe. -/
  | notModelled (mnemonic : String)
  /-- Raised by every operation but INIT while `life = ABSENT`: the spec refuses it (R73, R129). Safe. -/
  | instanceAbsent
  /-- Raised by every operation while `life = DEAD`: the spec refuses it (R73, R129). Safe. -/
  | instanceDead
  /-- Raised by INIT while `life = ALIVE`: the spec refuses a second INIT (R73, R129). Safe. -/
  | alreadyConstructed
  /-- Raised by `step` on a request that `decode` rejects; R59 leaves no such request. Safe. -/
  | undecodable
  deriving DecidableEq, Repr

/-- The parameters `State.reset` stands at: the spec's defaults, and little-endian where it has none (R5; log 5). -/
def defaultParams : Params := ⟨.little, .frozen, .invalidArgument⟩

/-- The machine before INIT: `life = ABSENT` (R16), nobody has called anything. -/
def State.beforeInit (p : Params) : State := ⟨.absent, none, p, [], [], [], 0⟩

/-- The machine right after reset, that is after a successful INIT (R21, R150; log 4). -/
def State.reset : State :=
  ⟨.alive ⟨0x00000000#32, 0x00000001#32, 0x00000000#32, 0x00000000#32⟩, none, defaultParams, [], [], [], 0⟩

end Sys2Proof.Machine
end

