-- ==== Sys2Proof/Machine/Flags.lean ====
section
/-! DEFINITION. The status flags, the command decoder, the status multiplexer and the counter engine. -/

namespace Sys2Proof.Machine

/-- READY, status bit 0 (R18). -/
def readyFlag (status : Word) : Bool := status.getLsbD 0
/-- BUSY, status bit 1 (R18). -/
def busyFlag (status : Word) : Bool := status.getLsbD 1
/-- ERROR, status bit 2 (R18). -/
def errorFlag (status : Word) : Bool := status.getLsbD 2

/-- The decoder's two signals (R93). -/
structure Command where
  en : Bool
  rst : Bool
  deriving DecidableEq, Repr

/-- The command decoder: `en = v[0]`, `rst = v[1]`, and nothing else of `v` (R93). -/
def commandOf (v : Word) : Command := ⟨v.getLsbD 0, v.getLsbD 1⟩

/-- The status flag multiplexer, `rst` first (R94). -/
def statusMux (c : Command) (status : Word) : Word :=
  if c.rst then READY else if c.en then BUSY else status

/-- The counter engine. A reset clears the counter; without one it is held when frozen, and is the free value
`draw` when COUNTER_MODEL is free (R95, D4). Operations other than an accepted WRITE pass `rst = false` (K1 to K4
of spec/95_test_vectors.md 2.6). -/
def counterEngine (m : CounterModel) (draw : Word) (rst : Bool) (counter : Word) : Word :=
  if rst then 0x00000000#32
  else match m with
    | .frozen => counter
    | .free => draw

end Sys2Proof.Machine
end

