-- ==== Sys2Proof/Machine/Operands.lean ====
section
/-! DEFINITION. The operand forms: named registers and the caller's buffers. -/

namespace Sys2Proof.Machine

/-- `x[i]` as a value (R10, D16). -/
def RegFile.get (r : RegFile) : RegName → Word
  | .control => r.control
  | .status => r.status
  | .data => r.data
  | .counter => r.counter

/-- The index of a register in the source's order, used for naming only (R10, D9). -/
def RegName.index : RegName → Nat
  | .control => 0
  | .status => 1
  | .data => 2
  | .counter => 3

/-- The buffer length `L` is at least one transfer unit (R82, R90). -/
def holdsUnit (buffer : List Byte) : Bool := 4 ≤ buffer.length

/-- `MemWrite(dst, 4, bytes)`: destination offsets 0 to 3 take the unit, offsets 4 and above keep their contents
(R55, D7). -/
def memWrite (dst : List Byte) (u : TransferUnit) : List Byte := u.toList ++ dst.drop 4

/-- A destination buffer of the given length after AccessFault: every byte is a free value (R83, D20; log 7). -/
def faultedBuffer (draw : Nat) (length : Nat) : List Byte := (List.range length).map (Config.freeByte draw)

end Sys2Proof.Machine
end

