-- ==== Sys2Proof/Machine/Ops.lean ====
section
/-! DEFINITION. The named operations over the state that the instructions and the step are written with. -/

namespace Sys2Proof.Machine

/-- The lifecycle state of the block (R16). -/
def Block.life : Block → Life
  | .absent => .absent
  | .alive _ => .alive
  | .dead => .dead

/-- The registers, which exist exactly while the block is ALIVE (R16). -/
def Block.regs? : Block → Option RegFile
  | .absent => none
  | .alive r => some r
  | .dead => none

/-- The lifecycle state of the machine (R16). -/
def State.life (s : State) : Life := s.block.life

/-- The registers of the machine, if they exist (R16, R139). -/
def State.regs? (s : State) : Option RegFile := s.block.regs?

/-- Put the block in the given condition. -/
def State.setBlock (s : State) (b : Block) : State := { s with block := b }

/-- Assign the whole register file at once (R38). -/
def State.setRegs (s : State) (r : RegFile) : State := s.setBlock (.alive r)

/-- The value `counter` takes when an operation completes: the counter engine under the machine's COUNTER_MODEL
(R95). -/
def State.nextCounter (s : State) (rst : Bool) (counter : Word) : Word :=
  counterEngine s.params.counterModel (Config.freeCounter s.draws) rst counter

/-- Report the outcome of an operation to its caller, the agent inside the critical section, with the destination
buffer of a READ as it stands (R50, R60, R126). -/
def State.respond (s : State) (response : Response) (buffer : Option (List Byte)) : State :=
  { s with replies := ⟨s.lock, response, buffer⟩ :: s.replies }

/-- The registers INIT creates: `control = 0`, `data = 0`, `counter = 0`, `status = READY` (R70). -/
def initialRegs : RegFile := ⟨0x00000000#32, READY, 0x00000000#32, 0x00000000#32⟩

/-- Perform an operation that is accepted only while the block is ALIVE, and refuse it otherwise (R73, R129). -/
def ifAlive (s : State) (operation : RegFile → State) : Host.Outcome State Fault Refusal :=
  match s.block with
  | .absent => .refused .instanceAbsent
  | .alive r => .next (operation r)
  | .dead => .refused .instanceDead

/-- The registers when an operation that writes none of them completes: `counter` alone may move, and only when
COUNTER_MODEL is free (R81, R101, R117, D4). -/
def State.hold (s : State) (r : RegFile) : State :=
  s.setRegs { r with counter := s.nextCounter false r.counter }

/-- The datapath of an accepted WRITE in its parallel form: control latch, status multiplexer, counter engine,
data hold (R92, R94, R95, R96, R103). -/
def RegFile.accept (m : CounterModel) (draw : Word) (v : Word) (r : RegFile) : RegFile where
  control := v
  status := statusMux (commandOf v) r.status
  data := r.data
  counter := counterEngine m draw (commandOf v).rst r.counter

/-- The source's sequential effect list of an accepted WRITE, steps 1 to 3 in order, with the counter held between
RESETs (R91). No meaning calls it: R103 says the datapath computes the same. -/
def RegFile.effectList (v : Word) (r : RegFile) : RegFile :=
  let step1 := { r with control := v }
  let step2 := if v &&& ENABLE ≠ 0#32 then { step1 with status := BUSY } else step1
  if v &&& RESET ≠ 0#32 then { step2 with counter := 0x00000000#32, status := READY } else step2

/-- An accepted WRITE of command word `v`: the whole effect in one transition, and `Ok(4)` whatever the buffer
length (R91, R102). -/
def acceptWrite (v : Word) (s : State) : Host.Outcome State Fault Refusal :=
  ifAlive s fun r =>
    (s.setRegs (r.accept s.params.counterModel (Config.freeCounter s.draws) v)).respond (.okCount 4) none

/-- An operation raises an error kind: no register is written and the kind goes to the caller (R126, R127). -/
def raise (kind : ErrorKind) (buffer : Option (List Byte)) (s : State) (r : RegFile) : State :=
  (s.hold r).respond (.err kind) buffer

/-- The numeric code of an error response under ERR_CODE (R60, D8). -/
def Response.code : Response → Option Int
  | .ok => none
  | .okCount _ => none
  | .okRead _ _ => none
  | .err kind => some (Config.errCode kind)

/-- The agent that issues the call (R135). -/
def Call.caller : Call → Agent
  | .ofSystem _ => .system
  | .ofClient n _ => .client n

/-- The request the call makes of the block (R50). -/
def Call.request : Call → Request
  | .ofSystem operation => operation.toRequest
  | .ofClient _ operation => operation.toRequest

/-- Take out the first waiting call of an agent: one agent's calls keep that agent's order (R39). -/
def takeCall (a : Agent) : List Call → Option (Call × List Call)
  | [] => none
  | c :: cs =>
    if c.caller = a then some (c, cs)
    else (takeCall a cs).map fun p => (p.1, c :: p.2)

/-- The agent that gets the lock next: the head of the schedule, and past its end the caller of a freely chosen
waiting call (R39, R45, D11; log 2). -/
def State.nextCaller (s : State) : Option Agent :=
  match s.schedule with
  | a :: _ => some a
  | [] => (s.pending[Config.lockChoice s.draws % s.pending.length]?).map Call.caller

/-- Grant the lock: the call that takes effect next, if any, and the state without it. A scheduled agent with no
waiting call uses its turn up (log 2). -/
def State.grant (s : State) : Option Call × State :=
  match s.nextCaller with
  | none => (none, s)
  | some a =>
    match takeCall a s.pending with
    | none => (none, { s with schedule := s.schedule.tail })
    | some (c, waiting) => (some c, { s with schedule := s.schedule.tail, pending := waiting })

/-- Enter the critical section (R20, R38). -/
def State.acquire (s : State) (a : Agent) : State := { s with lock := some a }

/-- Leave the critical section, and go on to the next free values (R20; log 6). -/
def State.release (s : State) : State := { s with lock := none, draws := s.draws + 1 }

/-- A step in which no operation takes effect: nothing happens, but that `counter` may move when COUNTER_MODEL is
free (R117; log 3). -/
def State.idle (s : State) : State :=
  match s.block with
  | .absent => { s with draws := s.draws + 1 }
  | .alive r => { s.hold r with draws := s.draws + 1 }
  | .dead => { s with draws := s.draws + 1 }

/-- The lock is released on every exit path of an operation, error responses included (R20, R126). -/
def leave : Host.Outcome State Fault Refusal → Host.Outcome State Fault Refusal
  | .next s => .next s.release
  | .fault f => .fault f
  | .refused r => .refused r

end Sys2Proof.Machine
end

