-- ==== Sys2Proof/Machine/Lifecycle.lean ====
section
/-! DEFINITION. The lifecycle operations: INIT, SHUTDOWN, OPEN, CLOSE. -/

namespace Sys2Proof.Machine

/-- INIT. With storage available it creates the four registers and the block is ALIVE (R70); without, no register
comes to exist and the block is DEAD (R71). It is performed in ABSENT only (R73). -/
def execInit (allocOk : Bool) (s : State) : Host.Outcome State Fault Refusal :=
  match s.block with
  | .absent =>
    if allocOk then .next ((s.setRegs initialRegs).respond .ok none)
    else .next ((s.setBlock .dead).respond (.err .outOfMemory) none)
  | .alive _ => .refused .alreadyConstructed
  | .dead => .refused .instanceDead

/-- SHUTDOWN: the registers cease to hold values (R72). -/
def execShutdown (s : State) : Host.Outcome State Fault Refusal :=
  ifAlive s fun _ => (s.setBlock .dead).respond .ok none

/-- OPEN: purely observational, it changes no register (R74). -/
def execOpenSession (s : State) : Host.Outcome State Fault Refusal :=
  ifAlive s fun r => (s.hold r).respond .ok none

/-- CLOSE: likewise observational (R75). -/
def execCloseSession (s : State) : Host.Outcome State Fault Refusal :=
  ifAlive s fun r => (s.hold r).respond .ok none

end Sys2Proof.Machine
end

