-- ==== Sys2Proof/Machine/Read.lean ====
section
/-! DEFINITION. READ. -/

namespace Sys2Proof.Machine

/-- READ: the length test first (R82, R130), then the core's read of `status`, then the copy to the destination,
which succeeds (R80) or faults (R83). No register is written in any case (R81). -/
def execRead (dst : List Byte) (dstWritable : Bool) (s : State) : Host.Outcome State Fault Refusal :=
  ifAlive s fun r =>
    if holdsUnit dst then
      if dstWritable then
        let unit := bytesOf s.params.byteOrder r.status
        (s.hold r).respond (.okRead 4 unit) (some (memWrite dst unit))
      else raise .accessFault (some (faultedBuffer s.draws dst.length)) s r
    else raise s.params.shortReadError (some dst) s r

end Sys2Proof.Machine
end

