-- ==== Sys2Proof/Machine/Write.lean ====
section
/-! DEFINITION. WRITE in its five forms. The four accepted forms feed the same datapath, which decodes the command
word (R93, R103); the bytes at source offsets 4 and above reach nothing (R54, R102). -/

namespace Sys2Proof.Machine

/-- WRITE.NOP (R97). -/
def execWriteNop (v : Word) (_rest : List Byte) (s : State) : Host.Outcome State Fault Refusal :=
  acceptWrite v s

/-- WRITE.ENABLE (R98). -/
def execWriteEnable (v : Word) (_rest : List Byte) (s : State) : Host.Outcome State Fault Refusal :=
  acceptWrite v s

/-- WRITE.RESET (R99). -/
def execWriteReset (v : Word) (_rest : List Byte) (s : State) : Host.Outcome State Fault Refusal :=
  acceptWrite v s

/-- WRITE.ENRST (R100). -/
def execWriteEnrst (v : Word) (_rest : List Byte) (s : State) : Host.Outcome State Fault Refusal :=
  acceptWrite v s

/-- WRITE.REJECT: InvalidArgument whatever the cause, and nothing written (R101, R122, R123). -/
def execWriteReject (_src : List Byte) (_srcReadable : Bool) (s : State) : Host.Outcome State Fault Refusal :=
  ifAlive s fun r => raise .invalidArgument none s r

end Sys2Proof.Machine
end

