-- ==== Sys2Proof/Machine/Dispatch.lean ====
section
/-! DEFINITION. The dispatch from instructions to their meanings. -/

namespace Sys2Proof.Machine

def exec (i : Instr) (s : State) : Host.Outcome State Fault Refusal :=
  match i with
  | .init allocOk => Sys2Proof.Machine.execInit allocOk s
  | .shutdown => Sys2Proof.Machine.execShutdown s
  | .openSession => Sys2Proof.Machine.execOpenSession s
  | .closeSession => Sys2Proof.Machine.execCloseSession s
  | .read dst dstWritable => Sys2Proof.Machine.execRead dst dstWritable s
  | .writeNop v rest => Sys2Proof.Machine.execWriteNop v rest s
  | .writeEnable v rest => Sys2Proof.Machine.execWriteEnable v rest s
  | .writeReset v rest => Sys2Proof.Machine.execWriteReset v rest s
  | .writeEnrst v rest => Sys2Proof.Machine.execWriteEnrst v rest s
  | .writeReject src srcReadable => Sys2Proof.Machine.execWriteReject src srcReadable s

end Sys2Proof.Machine
end

