-- ==== Sys2Proof/Machine/Step.lean ====
section
/-! DEFINITION. One step: the next call, in the order the lock is granted, takes its whole effect. -/

namespace Sys2Proof.Machine

/-- A call inside its critical section: enter, run the decoded instruction, leave (R38). -/
def serve (c : Call) (s : State) : Host.Outcome State Fault Refusal :=
  match decode s.params.byteOrder c.request with
  | .ok i => leave (exec i (s.acquire c.caller))
  | .error _ => .refused .undecodable

/-- One step. The granted call is served; with no call to grant, or while the lock is held, nothing takes effect
(R39, R45, R117; log 1, 2, 3). -/
def step (s : State) : Host.Outcome State Fault Refusal :=
  match s.lock with
  | some _ => .next s.idle
  | none =>
    match s.grant with
    | (none, t) => .next t.idle
    | (some c, t) => serve c t

/-- The state in which the next step performs the WRITE that carries a word of the opcode table: a client's call
stands first, its turn is next and the lock is free (log 4, 14). A word that is none of the table's leaves the
state alone. -/
def State.withFetchWord (s : State) (nbits w : Nat) : State :=
  match tableRequest s.params.byteOrder nbits w with
  | none => s
  | some q =>
    { s with
      lock := none
      pending := .ofClient 0 q :: s.pending
      schedule := .client 0 :: s.schedule }

end Sys2Proof.Machine
end

