-- ==== Sys2Proof/Safety.lean ====
section
/-! DEFINITION. The terms claims are made in: runs, what an operation leaves alone, the invariant of ALIVE states,
what a client can observe, and serialization orders. -/

namespace Sys2Proof.Machine

/-- `k` steps, stopping at the first refusal. -/
def runFor : Nat → State → Host.Outcome State Fault Refusal
  | 0, s => .next s
  | k + 1, s =>
    match step s with
    | .next t => runFor k t
    | .fault f => .fault f
    | .refused r => .refused r

/-- What surrounds the block is as it was: the lock, the parameters, the waiting calls, the lock order and the
index of the free values. An operation changes none of them. -/
def SameEnvironment (s t : State) : Prop :=
  t.lock = s.lock ∧ t.params = s.params ∧ t.pending = s.pending ∧ t.schedule = s.schedule ∧ t.draws = s.draws

/-- Exactly one reply was given: to the agent that holds the lock, with this response and this destination buffer
(R50, R60). -/
def Replied (s t : State) (response : Response) (buffer : Option (List Byte)) : Prop :=
  t.replies = ⟨s.lock, response, buffer⟩ :: s.replies

/-- `counter` is held under a frozen counter; under a free one nothing is said of it (R95, R117, D4). -/
def CounterHeld (m : CounterModel) (r r' : RegFile) : Prop := m = .frozen → r'.counter = r.counter

/-- No register is written: `control`, `status` and `data` are as they were, and `counter` is held. -/
def RegistersHeld (m : CounterModel) (r r' : RegFile) : Prop :=
  r'.control = r.control ∧ r'.status = r.status ∧ r'.data = r.data ∧ CounterHeld m r r'

/-- The blocks are the same, but that `counter` is left aside when COUNTER_MODEL is free (D4). -/
def SameBlock (m : CounterModel) : (b b' : Block) → Prop
  | .absent, .absent => True
  | .alive r, .alive r' => RegistersHeld m r r'
  | .dead, .dead => True
  | .absent, .alive _ => False
  | .absent, .dead => False
  | .alive _, .absent => False
  | .alive _, .dead => False
  | .dead, .absent => False
  | .dead, .alive _ => False

/-- What holds of the registers in every reachable ALIVE state: `status` is READY or BUSY (R113), `data` is 0 and,
frozen, `counter` is 0 (R114), and `control` and `status` are related (R115). -/
def SoundRegs (m : CounterModel) (r : RegFile) : Prop :=
  (r.status = 0x00000001#32 ∨ r.status = 0x00000002#32) ∧
  r.data = 0#32 ∧
  (m = .frozen → r.counter = 0#32) ∧
  (r.control.getLsbD 1 = true → r.status = 0x00000001#32) ∧
  (r.control &&& 3#32 = 1#32 → r.status = 0x00000002#32)

/-- The invariant of the machine between operations: the lock is free (R20) and the registers, where they exist,
are sound (R113 to R115). -/
def State.Inv (s : State) : Prop :=
  s.lock = none ∧ ∀ r, s.block = .alive r → SoundRegs s.params.counterModel r

/-- What a client can tell of the block: whether it exists, and `status` (R22, R139). -/
def Block.visible : Block → Life × Option Word
  | .absent => (.absent, none)
  | .alive r => (.alive, some r.status)
  | .dead => (.dead, none)

/-- Two machines a client cannot tell apart: they may differ in `control`, `data` and `counter` only (R22). -/
def SameToClients (s t : State) : Prop :=
  s.block.visible = t.block.visible ∧ s.replies = t.replies ∧ SameEnvironment s t

/-- Two outcomes are alike: next states related by `rel`, or the same refusal. -/
def AlikeOutcomes (rel : State → State → Prop) : (a b : Host.Outcome State Fault Refusal) → Prop
  | .next s, .next t => rel s t
  | .refused p, .refused q => p = q
  | .fault _, .fault _ => True
  | .next _, .refused _ => False
  | .next _, .fault _ => False
  | .refused _, .next _ => False
  | .refused _, .fault _ => False
  | .fault _, .next _ => False
  | .fault _, .refused _ => False

/-- The calls of one agent, in that agent's own order (R39). -/
def callsOf (a : Agent) (calls : List Call) : List Call := calls.filter fun c => c.caller = a

/-- Whole operations one after another in a given serialization order (R39). -/
def serveAll : List Call → State → Host.Outcome State Fault Refusal
  | [], s => .next s
  | c :: cs, s =>
    match serve c s with
    | .next t => serveAll cs t
    | .fault f => .fault f
    | .refused r => .refused r

/-- What a reply tells its caller apart from the bytes of its buffer: to whom it went, and the response. -/
def Reply.told (p : Reply) : Option Agent × Response := (p.caller, p.response)

end Sys2Proof.Machine

namespace Sys2Proof

/-- The instruction leaves `status` as it is when it holds the given word (R84): every operation but an ENABLE that
finds it not BUSY, a RESET that finds it not READY, INIT and SHUTDOWN. -/
def Instr.KeepsStatus (status : Word) : Instr → Prop
  | .init _ => False
  | .shutdown => False
  | .openSession => True
  | .closeSession => True
  | .read _ _ => True
  | .writeNop _ _ => True
  | .writeEnable _ _ => status = 0x00000002#32
  | .writeReset _ _ => status = 0x00000001#32
  | .writeEnrst _ _ => status = 0x00000001#32
  | .writeReject _ _ => True

end Sys2Proof
end

