-- ==== Sys2Proof/Certificates/Slice0/Obligations.lean ====
section
/-! DEFINITION. The statements for the provers, from the numbered rules of spec/. -/

open Sys2Proof Sys2Proof.Machine

/-! ## Reset, encoding, the step -/

/-- `State.reset` is the state after a successful INIT (the model's reading of R21 and R150, log 4): its block is ALIVE with
the values of R21 and its lock is free, and the step that serves the system's INIT from before INIT leads to that block
with nothing waiting. -/
def Obligations.ResetStateIsTheStateAfterInit : Prop :=
  State.reset.block = .alive ⟨0x00000000#32, 0x00000001#32, 0x00000000#32, 0x00000000#32⟩ ∧
  State.reset.lock = none ∧ State.reset.life = .alive ∧
  ∃ t, step { State.beforeInit defaultParams with pending := [.ofSystem (.init true)], schedule := [.system] } = .next t ∧
    t.block = State.reset.block ∧ t.lock = none ∧ t.params = State.reset.params ∧ t.pending = [] ∧ t.schedule = []

/-- Sanity: words of spec/95_test_vectors.md 2.1, their bytes written out in both orders, decode to the instruction
of their class. -/
def Obligations.WordsWrittenOutDecode : Prop :=
  decode .little (.write [0x00, 0x00, 0x00, 0x80] true) = .ok (.writeNop 0x80000000#32 []) ∧
  decode .big (.write [0x01, 0x00, 0x00, 0x00] true) = .ok (.writeNop 0x01000000#32 []) ∧
  decode .little (.write [0xFD, 0xFF, 0xFF, 0xFF] true) = .ok (.writeEnable 0xFFFFFFFD#32 []) ∧
  decode .big (.write [0x80, 0x00, 0x00, 0x02] true) = .ok (.writeReset 0x80000002#32 []) ∧
  decode .little (.write [0xEF, 0xBE, 0xAD, 0xDE] true) = .ok (.writeEnrst 0xDEADBEEF#32 []) ∧
  decode .big (.write [0xDE, 0xAD, 0xBE, 0xEF] true) = .ok (.writeEnrst 0xDEADBEEF#32 []) ∧
  decode .little (.write [0x02, 0x00, 0x00] true) = .ok (.writeReject [0x02, 0x00, 0x00] true) ∧
  decode .big (.read [0x00] false) = .ok (.read [0x00] false) ∧
  decode .big (.init false) = .ok (.init false)

/-- The step runs the decoded instruction. With the lock free, the agent whose turn it is (the head of the schedule)
gets its first waiting call `c` served: `step` is `exec` of the instruction the call's request decodes to, at the
state without that turn and that call and with the lock held by its caller; afterwards the lock is free again and
the free values advance. A turn of an agent with no waiting call is used up and nothing else takes effect. -/
def Obligations.StepRunsTheDecodedInstruction : Prop :=
  ∀ (s : State) (a : Agent) (turns : List Agent), s.lock = none → s.schedule = a :: turns →
    (∀ (before after : List Call) (c : Call) (i : Instr),
      s.pending = before ++ c :: after → callsOf a before = [] → c.caller = a →
      decode s.params.byteOrder c.request = .ok i →
      step s =
        match exec i { s with lock := some a, schedule := turns, pending := before ++ after } with
        | .next t => .next { t with lock := none, draws := t.draws + 1 }
        | .fault f => .fault f
        | .refused r => .refused r) ∧
    (callsOf a s.pending = [] → step s = .next ({ s with schedule := turns }).idle)

/-- The same past the end of the schedule (log 2): if only calls of one agent wait, the first of them is served;
if none waits, nothing takes effect. -/
def Obligations.StepServesALoneCallerInItsOrder : Prop :=
  ∀ s : State, s.lock = none → s.schedule = [] →
    (∀ (c : Call) (after : List Call) (i : Instr), s.pending = c :: after →
      (∀ d ∈ after, d.caller = c.caller) → decode s.params.byteOrder c.request = .ok i →
      step s =
        match exec i { s with lock := some c.caller, pending := after } with
        | .next t => .next { t with lock := none, draws := t.draws + 1 }
        | .fault f => .fault f
        | .refused r => .refused r) ∧
    (s.pending = [] → step s = .next s.idle)

/-- Decode and encode agree: for every well-formed instruction, every operand and either byte order. -/
def Obligations.DecodeOfEncodeIsTheInstruction : Prop :=
  ∀ (o : ByteOrder) (i : Instr), i.WellFormed → decode o (encode o i) = .ok i

/-- R59: no command word is illegal. Every request decodes to a well-formed instruction, and encoding that gives the
request back, every byte of it. -/
def Obligations.EveryRequestIsAnInstruction : Prop :=
  ∀ (o : ByteOrder) (q : Request), ∃ i, decode o q = .ok i ∧ i.WellFormed ∧ encode o i = q

/-- R57: an accepted WRITE is classified by `v[1:0]` and nothing else, and a WRITE with `L < 4` or an unreadable
source is WRITE.REJECT. -/
def Obligations.WritesAreClassifiedByTheLowTwoBits : Prop :=
  ∀ (o : ByteOrder) (b0 b1 b2 b3 : Byte) (rest : List Byte),
    let v := wordOf o ⟨b0, b1, b2, b3⟩
    let accepted := decode o (.write (b0 :: b1 :: b2 :: b3 :: rest) true)
    (v &&& 0x00000003#32 = 0x00000000#32 ↔ accepted = .ok (.writeNop v rest)) ∧
    (v &&& 0x00000003#32 = 0x00000001#32 ↔ accepted = .ok (.writeEnable v rest)) ∧
    (v &&& 0x00000003#32 = 0x00000002#32 ↔ accepted = .ok (.writeReset v rest)) ∧
    (v &&& 0x00000003#32 = 0x00000003#32 ↔ accepted = .ok (.writeEnrst v rest)) ∧
    ∀ (src : List Byte) (readable : Bool),
      (src.length < 4 ∨ readable = false) ↔
        decode o (.write src readable) = .ok (.writeReject src readable)

/-- R51: `word` and `bytes` are inverse to each other under either order, and byte `k` of the little-endian unit
and byte `3 - k` of the big-endian one hold bits `8k` to `8k + 7`. -/
def Obligations.WordAndBytesAreInverse : Prop :=
  (∀ (o : ByteOrder) (v : Word), wordOf o (bytesOf o v) = v) ∧
  (∀ (o : ByteOrder) (u : TransferUnit), bytesOf o (wordOf o u) = u) ∧
  ∀ (u : TransferUnit) (j : Nat), j < 8 →
    ((wordOf .little u).getLsbD j = u.b0.getLsbD j ∧ (wordOf .little u).getLsbD (8 + j) = u.b1.getLsbD j ∧
     (wordOf .little u).getLsbD (16 + j) = u.b2.getLsbD j ∧ (wordOf .little u).getLsbD (24 + j) = u.b3.getLsbD j) ∧
    ((wordOf .big u).getLsbD j = u.b3.getLsbD j ∧ (wordOf .big u).getLsbD (8 + j) = u.b2.getLsbD j ∧
     (wordOf .big u).getLsbD (16 + j) = u.b1.getLsbD j ∧ (wordOf .big u).getLsbD (24 + j) = u.b0.getLsbD j)

/-- R159: the command bits are in `b0` little-endian and in `b3` big-endian, and an ENABLE sent in the other order
is silently WRITE.NOP of 0x01000000: it completes and leaves `status` alone. -/
def Obligations.WrongByteOrderEnableIsSilentlyNop : Prop :=
  (∀ v : Word, (bytesOf .little v).b0.extractLsb' 0 2 = v.extractLsb' 0 2 ∧
    (bytesOf .big v).b3.extractLsb' 0 2 = v.extractLsb' 0 2) ∧
  ∀ (client host : ByteOrder) (s : State) (r : RegFile), client ≠ host → s.block = .alive r →
    ∃ t r', decode host (encode client (.writeEnable 0x00000001#32 [])) = .ok (.writeNop 0x01000000#32 []) ∧
      exec (.writeNop 0x01000000#32 []) s = .next t ∧ t.block = .alive r' ∧ r'.status = r.status ∧
      Replied s t (.okCount 4) none

/-! ## Lifecycle -/

/-- R70, R21, R111: INIT in ABSENT with storage available creates the registers with exactly the stated values, so the
block is ALIVE and READY, and responds `Ok`; a lock that was free is free. -/
def Obligations.InitCreatesTheRegisterFile : Prop :=
  ∀ s : State, s.block = .absent →
    ∃ t, exec (.init true) s = .next t ∧
      t.block = .alive ⟨0x00000000#32, 0x00000001#32, 0x00000000#32, 0x00000000#32⟩ ∧ t.life = .alive ∧
      readyFlag 0x00000001#32 = true ∧ busyFlag 0x00000001#32 = false ∧ errorFlag 0x00000001#32 = false ∧
      (s.lock = none → t.lock = none) ∧ Replied s t .ok none ∧ SameEnvironment s t

/-- R71: INIT in ABSENT without storage responds `Err(OutOfMemory)`; no register comes to exist, and `life` is DEAD. -/
def Obligations.FailedInitLeavesNoInstance : Prop :=
  ∀ s : State, s.block = .absent →
    ∃ t, exec (.init false) s = .next t ∧ t.life = .dead ∧ t.regs? = none ∧
      Replied s t (.err .outOfMemory) none ∧ SameEnvironment s t

/-- R72: SHUTDOWN in ALIVE responds `Ok`; the registers cease to hold values. -/
def Obligations.ShutdownEndsTheInstance : Prop :=
  ∀ (s : State) (r : RegFile), s.block = .alive r →
    ∃ t, exec .shutdown s = .next t ∧ t.life = .dead ∧ t.regs? = none ∧
      Replied s t .ok none ∧ SameEnvironment s t

/-- R74, R75: OPEN and CLOSE in ALIVE respond `Ok` and change no register and no other state. -/
def Obligations.OpenAndCloseChangeNothing : Prop :=
  ∀ (s : State) (r : RegFile) (i : Instr), i = .openSession ∨ i = .closeSession → s.block = .alive r →
    ∃ t r', exec i s = .next t ∧ t.block = .alive r' ∧ RegistersHeld s.params.counterModel r r' ∧
      Replied s t .ok none ∧ SameEnvironment s t

/-- R73: in ABSENT exactly INIT is performed, in ALIVE exactly the others, in DEAD nothing; the rest is refused. -/
def Obligations.OperationsArePerformedByLife : Prop :=
  ∀ (s : State) (i : Instr),
    ((∃ ok, i = .init ok) →
      (s.life = .absent → ∃ t, exec i s = .next t) ∧
      (s.life = .alive → exec i s = .refused .alreadyConstructed) ∧
      (s.life = .dead → exec i s = .refused .instanceDead)) ∧
    ((∀ ok, i ≠ .init ok) →
      (s.life = .absent → exec i s = .refused .instanceAbsent) ∧
      (s.life = .alive → ∃ t, exec i s = .next t) ∧
      (s.life = .dead → exec i s = .refused .instanceDead))

/-- R16: `life` is ABSENT at first, the registers hold values exactly while it is ALIVE, and only INIT and SHUTDOWN
change it: INIT from ABSENT to ALIVE or DEAD, SHUTDOWN from ALIVE to DEAD. A step in which no operation takes
effect does not. -/
def Obligations.LifeChangesOnlyByInitAndShutdown : Prop :=
  (∀ p, (State.beforeInit p).life = .absent) ∧
  (∀ s : State, s.regs?.isSome ↔ s.life = .alive) ∧
  (∀ s : State, s.idle.life = s.life) ∧
  ∀ (i : Instr) (s t : State), exec i s = .next t → t.life ≠ s.life →
    (i = .init true ∧ s.life = .absent ∧ t.life = .alive) ∨
    (i = .init false ∧ s.life = .absent ∧ t.life = .dead) ∨
    (i = .shutdown ∧ s.life = .alive ∧ t.life = .dead)

/-! ## READ -/

/-- R80: READ into a writable buffer of at least four bytes responds `Ok(4)` with the bytes of `status`, puts them
at offsets 0 to 3 and leaves the rest of the buffer; nothing is written. -/
def Obligations.ReadReturnsStatus : Prop :=
  ∀ (s : State) (r : RegFile) (b0 b1 b2 b3 : Byte) (rest : List Byte), s.block = .alive r →
    ∃ t r', exec (.read (b0 :: b1 :: b2 :: b3 :: rest) true) s = .next t ∧
      (let u := bytesOf s.params.byteOrder r.status
       Replied s t (.okRead 4 u) (some (u.b0 :: u.b1 :: u.b2 :: u.b3 :: rest))) ∧
      t.block = .alive r' ∧ RegistersHeld s.params.counterModel r r' ∧ SameEnvironment s t

/-- R82, R125, R130: READ into fewer than four bytes is rejected with SHORT_READ_ERROR whether or not the buffer can
be written; no byte of the buffer and no register is written. -/
def Obligations.ShortReadIsRejected : Prop :=
  ∀ (s : State) (r : RegFile) (dst : List Byte) (writable : Bool), s.block = .alive r → dst.length < 4 →
    ∃ t r', exec (.read dst writable) s = .next t ∧
      Replied s t (.err s.params.shortReadError) (some dst) ∧
      t.block = .alive r' ∧ RegistersHeld s.params.counterModel r r' ∧ SameEnvironment s t

/-- R83: READ into an unwritable buffer of at least four bytes responds `Err(AccessFault)`; no register is written.
Of the destination only its length is known. -/
def Obligations.UnwritableReadIsAnAccessFault : Prop :=
  ∀ (s : State) (r : RegFile) (dst : List Byte), s.block = .alive r → 4 ≤ dst.length →
    ∃ t r' after, exec (.read dst false) s = .next t ∧
      Replied s t (.err .accessFault) (some after) ∧ after.length = dst.length ∧
      t.block = .alive r' ∧ RegistersHeld s.params.counterModel r r' ∧ SameEnvironment s t

/-- R81: READ changes no state in any case: whatever READ that answers a next state, `life`, `control`, `status` and
`data` are as they were, `counter` is held, and what surrounds the block is as it was. -/
def Obligations.ReadChangesNoState : Prop :=
  ∀ (s t : State) (dst : List Byte) (writable : Bool), exec (.read dst writable) s = .next t →
    ∃ r r', s.block = .alive r ∧ t.block = .alive r' ∧ RegistersHeld s.params.counterModel r r' ∧
      SameEnvironment s t

/-- R84: read idempotence over runs. While only operations run that leave `status` as it is (READ of any case, OPEN,
CLOSE, a rejected WRITE, and an accepted WRITE that leaves it), under any order of the callers, every successful
READ returns the identical value, the `status` at the start, which is also the one at the end. -/
def Obligations.ReadsAreIdempotent : Prop :=
  ∀ (n : Nat) (s t : State) (r : RegFile), s.block = .alive r → s.lock = none →
    (∀ c ∈ s.pending, ∀ i, decode s.params.byteOrder c.request = .ok i → i.KeepsStatus r.status) →
    runFor n s = .next t →
    ∃ r' given, t.block = .alive r' ∧ r'.status = r.status ∧ t.replies = given ++ s.replies ∧
      ∀ p ∈ given, ∀ k u, p.response = .okRead k u → k = 4 ∧ u = bytesOf s.params.byteOrder r.status

/-! ## WRITE -/

/-- R97: WRITE.NOP latches `control`, holds the rest, and responds `Ok(4)` for every buffer length. -/
def Obligations.WriteNopOnlyLatchesControl : Prop :=
  ∀ (s : State) (r : RegFile) (v : Word) (rest : List Byte), s.block = .alive r →
    v &&& 0x00000003#32 = 0x00000000#32 →
    ∃ t r', exec (.writeNop v rest) s = .next t ∧ t.block = .alive r' ∧
      r'.control = v ∧ r'.status = r.status ∧ r'.data = r.data ∧ CounterHeld s.params.counterModel r r' ∧
      Replied s t (.okCount 4) none ∧ SameEnvironment s t

/-- R98: WRITE.ENABLE latches `control`, makes `status` BUSY as a whole word (READY and ERROR cleared) whatever it
was, holds `counter` and `data`, and responds `Ok(4)`. -/
def Obligations.WriteEnableSetsBusy : Prop :=
  ∀ (s : State) (r : RegFile) (v : Word) (rest : List Byte), s.block = .alive r →
    v &&& 0x00000003#32 = 0x00000001#32 →
    ∃ t r', exec (.writeEnable v rest) s = .next t ∧ t.block = .alive r' ∧
      r'.control = v ∧ r'.status = 0x00000002#32 ∧
      busyFlag r'.status = true ∧ readyFlag r'.status = false ∧ errorFlag r'.status = false ∧
      r'.data = r.data ∧ CounterHeld s.params.counterModel r r' ∧
      Replied s t (.okCount 4) none ∧ SameEnvironment s t

/-- R99, R100: WRITE.RESET and WRITE.ENRST latch `control`, clear `counter`, make `status` READY as a whole word (BUSY
and ERROR cleared) whatever it was, hold `data`, and respond `Ok(4)`; RESET wins over ENABLE. -/
def Obligations.WriteResetAndEnrstClearAndReady : Prop :=
  ∀ (s : State) (r : RegFile) (v : Word) (rest : List Byte) (i : Instr), s.block = .alive r →
    (v &&& 0x00000003#32 = 0x00000002#32 ∧ i = .writeReset v rest ∨
     v &&& 0x00000003#32 = 0x00000003#32 ∧ i = .writeEnrst v rest) →
    ∃ t, exec i s = .next t ∧ t.block = .alive ⟨v, 0x00000001#32, r.data, 0x00000000#32⟩ ∧
      readyFlag 0x00000001#32 = true ∧ busyFlag 0x00000001#32 = false ∧ errorFlag 0x00000001#32 = false ∧
      Replied s t (.okCount 4) none ∧ SameEnvironment s t

/-- R101: WRITE.REJECT responds `Err(InvalidArgument)` in both its cases and writes nothing; `control` is not
latched. -/
def Obligations.RejectedWriteChangesNothing : Prop :=
  ∀ (s : State) (r : RegFile) (src : List Byte) (readable : Bool), s.block = .alive r →
    (src.length < 4 ∨ readable = false) →
    ∃ t r', exec (.writeReject src readable) s = .next t ∧ t.block = .alive r' ∧
      RegistersHeld s.params.counterModel r r' ∧
      Replied s t (.err .invalidArgument) none ∧ SameEnvironment s t

/-- R92, R94, R95, R96, R102: any accepted WRITE, from its request. `control` is the command word, `status` READY if
`v[1]`, else BUSY if `v[0]`, else held, `counter` 0 if `v[1]`, else held when frozen, `data` held, response `Ok(4)`;
and nothing beside them changes. -/
def Obligations.AcceptedWriteRunsTheDatapath : Prop :=
  ∀ (s : State) (r : RegFile) (b0 b1 b2 b3 : Byte) (rest : List Byte), s.block = .alive r →
    ∃ i t r', decode s.params.byteOrder (.write (b0 :: b1 :: b2 :: b3 :: rest) true) = .ok i ∧
      exec i s = .next t ∧ t.block = .alive r' ∧
      (let v := wordOf s.params.byteOrder ⟨b0, b1, b2, b3⟩
       r'.control = v ∧
       (v.getLsbD 1 = true → r'.status = 0x00000001#32 ∧ r'.counter = 0x00000000#32) ∧
       (v.getLsbD 1 = false → CounterHeld s.params.counterModel r r' ∧
         (v.getLsbD 0 = true → r'.status = 0x00000002#32) ∧ (v.getLsbD 0 = false → r'.status = r.status)) ∧
       r'.data = r.data) ∧
      Replied s t (.okCount 4) none ∧ SameEnvironment s t

/-- R91, R103: the parallel datapath and the source's sequential effect list give the same next registers, for every
register file (reachable or not) and every command word. -/
def Obligations.DatapathEqualsTheEffectList : Prop :=
  ∀ (r : RegFile) (v draw : Word), r.accept .frozen draw v = r.effectList v

/-- R93: the command decoder derives `en` and `rst` from `v[0]` and `v[1]`, 1 exactly when `v` meets the mask, and no
other bit of `v` reaches them. -/
def Obligations.DecoderReadsTwoBitsOnly : Prop :=
  ∀ v w : Word,
    ((commandOf v).en = true ↔ v &&& ENABLE ≠ 0#32) ∧ ((commandOf v).rst = true ↔ v &&& RESET ≠ 0#32) ∧
    (v.extractLsb' 0 2 = w.extractLsb' 0 2 → commandOf v = commandOf w)

/-- R54, R158: the bytes of a source buffer at offsets 4 and above have no effect: two WRITEs that agree on the first
four bytes do the same in every state. -/
def Obligations.BytesBeyondFourHaveNoEffect : Prop :=
  ∀ (o : ByteOrder) (b0 b1 b2 b3 : Byte) (rest rest' : List Byte) (i i' : Instr),
    decode o (.write (b0 :: b1 :: b2 :: b3 :: rest) true) = .ok i →
    decode o (.write (b0 :: b1 :: b2 :: b3 :: rest') true) = .ok i' →
    ∀ s, exec i s = exec i' s

/-- R58, R59: command word bits 31:2 never cause an error and reach nothing but `control`: command words that agree on
the low two bits lead to next states that differ in `control` at most. -/
def Obligations.ReservedBitsReachOnlyControl : Prop :=
  ∀ (s : State) (r : RegFile) (u w : TransferUnit) (i j : Instr), s.block = .alive r →
    (wordOf s.params.byteOrder u).extractLsb' 0 2 = (wordOf s.params.byteOrder w).extractLsb' 0 2 →
    decode s.params.byteOrder (.write u.toList true) = .ok i →
    decode s.params.byteOrder (.write w.toList true) = .ok j →
    ∃ t r', exec i s = .next t ∧ t.block = .alive r' ∧
      exec j s = .next (t.setRegs { r' with control := wordOf s.params.byteOrder w })

/-- R105 (a), (b), (c), and R155: a command is executed again each time it is written. Writing `v` twice leaves what
writing it once leaves; after `rst = 1` the registers are `v`, READY, 0 and the old `data` whatever they were before;
after `rst = 0`, `en = 1` `status` is BUSY whatever it was. -/
def Obligations.RepeatedWritesAreIdempotent : Prop :=
  ∀ (s t : State) (r r1 : RegFile) (i : Instr) (u : TransferUnit), s.block = .alive r →
    decode s.params.byteOrder (.write u.toList true) = .ok i → exec i s = .next t → t.block = .alive r1 →
    (∃ t' r2, exec i t = .next t' ∧ t'.block = .alive r2 ∧
      r2.control = r1.control ∧ r2.status = r1.status ∧ r2.data = r1.data ∧
      (s.params.counterModel = .frozen → r2 = r1)) ∧
    ((wordOf s.params.byteOrder u).getLsbD 1 = true →
      r1 = ⟨wordOf s.params.byteOrder u, 0x00000001#32, r.data, 0x00000000#32⟩) ∧
    ((wordOf s.params.byteOrder u).getLsbD 1 = false → (wordOf s.params.byteOrder u).getLsbD 0 = true →
      r1.status = 0x00000002#32)

/-- R105 (d): the state after a sequence of accepted WRITEs of one client, under a frozen counter. `control` is the last
command word, `counter` is 0 if some word has `rst = 1`, and `status` is decided by the last word with a command bit. -/
def Obligations.StateAfterASequenceOfWrites : Prop :=
  ∀ (s : State) (r : RegFile) (n : Nat) (vs : List Word) (last : Word), s.block = .alive r → s.lock = none →
    s.params.counterModel = .frozen → s.schedule = [] →
    s.pending = (vs ++ [last]).map (fun v => .ofClient n (writeOperation s.params.byteOrder v [])) →
    ∃ t, runFor (vs.length + 1) s = .next t ∧ t.pending = [] ∧
      t.block = .alive
        ⟨last,
         (match ((vs ++ [last]).filter fun v => v &&& 3#32 ≠ 0#32).getLast? with
          | none => r.status
          | some v => if v.getLsbD 1 then 0x00000001#32 else 0x00000002#32),
         r.data,
         if (vs ++ [last]).any (fun v => v.getLsbD 1) then 0#32 else r.counter⟩

/-! ## The state machine -/

/-- R112: the complete transition table, over every status word, reachable or not. From an ALIVE block every operation
but INIT completes; SHUTDOWN leaves no register; the others lead to the `status`, `counter` and `control` of the
table. -/
def Obligations.TransitionTableHolds : Prop :=
  ∀ (s : State) (r : RegFile) (i : Instr), i.WellFormed → s.block = .alive r → (∀ ok, i ≠ .init ok) →
    ∃ t, exec i s = .next t ∧
      match i with
      | .shutdown => t.life = .dead
      | .writeNop v _ => ∃ r', t.block = .alive r' ∧ r'.status = r.status ∧ r'.control = v ∧
          CounterHeld s.params.counterModel r r'
      | .writeEnable v _ => ∃ r', t.block = .alive r' ∧ r'.status = 0x00000002#32 ∧ r'.control = v ∧
          CounterHeld s.params.counterModel r r'
      | .writeReset v _ => ∃ r', t.block = .alive r' ∧ r'.status = 0x00000001#32 ∧ r'.control = v ∧ r'.counter = 0#32
      | .writeEnrst v _ => ∃ r', t.block = .alive r' ∧ r'.status = 0x00000001#32 ∧ r'.control = v ∧ r'.counter = 0#32
      | _ => ∃ r', t.block = .alive r' ∧ r'.status = r.status ∧ r'.control = r.control ∧
          CounterHeld s.params.counterModel r r'

/-- The invariant holds at reset, and before INIT under every choice of the parameters. -/
def Obligations.ResetMeetsTheInvariant : Prop :=
  State.reset.Inv ∧ ∀ p, (State.beforeInit p).Inv

/-- R113 to R115, as an invariant: from every state that meets it, reachable or not, a step leads to one that does. -/
def Obligations.StepKeepsTheInvariant : Prop :=
  ∀ s t : State, s.Inv → step s = .next t → t.Inv

/-- R113, R114 (frozen), R115: in every state reached from before INIT, under any parameters, any calls of any agents and
any order of the lock, an ALIVE block has `status` READY or BUSY, never both flags, never ERROR or a higher bit,
`data` 0, `counter` 0 when frozen, and `control` related to `status`. -/
def Obligations.ReachableRegistersAreSound : Prop :=
  ∀ (n : Nat) (p : Params) (calls : List Call) (turns : List Agent) (t : State) (r : RegFile),
    runFor n { State.beforeInit p with pending := calls, schedule := turns } = .next t → t.block = .alive r →
    (r.status = 0x00000001#32 ∨ r.status = 0x00000002#32) ∧
    readyFlag r.status = !busyFlag r.status ∧ errorFlag r.status = false ∧ r.status.extractLsb' 3 29 = 0#29 ∧
    r.data = 0#32 ∧ (p.counterModel = .frozen → r.counter = 0#32) ∧
    (r.control.getLsbD 1 = true → r.status = 0x00000001#32) ∧
    (r.control &&& 3#32 = 1#32 → r.status = 0x00000002#32)

/-- R116: under the frozen counter every register file with `data = 0`, `counter = 0`, `status` 1 or 2 and the relation
of R115 is reached from before INIT by the system's INIT and at most two WRITEs of any client (that no other is reached
is `ReachableRegistersAreSound`). -/
def Obligations.EverySoundStateIsReached : Prop :=
  ∀ (p : Params) (n : Nat) (r : RegFile), p.counterModel = .frozen →
    r.data = 0#32 → r.counter = 0#32 → (r.status = 0x00000001#32 ∨ r.status = 0x00000002#32) →
    (r.control.getLsbD 1 = true → r.status = 0x00000001#32) →
    (r.control &&& 3#32 = 1#32 → r.status = 0x00000002#32) →
    ∃ (words : List Word) (t : State), words.length ≤ 2 ∧
      runFor (words.length + 1) { State.beforeInit p with
        pending := .ofSystem (.init true) :: words.map fun v => .ofClient n (writeOperation p.byteOrder v [])
        schedule := [.system] } = .next t ∧
      t.block = .alive r

/-- R117: no transition happens without an operation. A step in which no call takes effect answers a next state with
`life`, `control`, `status`, `data` and the replies as they were, and `counter` held when frozen. Which steps those
are is the model's choice: a used-up turn or nothing to grant (log 3, DEDUCED), and every step that starts with the
lock held (log 20, DESIGN CHOICE). -/
def Obligations.NothingHappensWithoutAnOperation : Prop :=
  ∀ s : State, s.lock ≠ none ∨ s.grant.1 = none →
    ∃ t, step s = .next t ∧ t.life = s.life ∧ t.replies = s.replies ∧ t.params = s.params ∧ t.lock = s.lock ∧
      t.pending = s.pending ∧
      ∀ r, s.block = .alive r → ∃ r', t.block = .alive r' ∧ RegistersHeld s.params.counterModel r r'

/-- R154: BUSY does not end by itself. If one step leads from a BUSY block to one that is not BUSY, then an accepted WRITE
with `rst = 1` took effect and the block is READY, or a SHUTDOWN did and the block is DEAD. -/
def Obligations.BusyEndsOnlyByResetOrShutdown : Prop :=
  ∀ (s t : State) (r : RegFile), s.lock = none → s.block = .alive r → r.status = 0x00000002#32 → step s = .next t →
    (∀ r', t.block = .alive r' → r'.status ≠ 0x00000002#32) →
    ∃ c u i, s.grant = (some c, u) ∧ decode s.params.byteOrder c.request = .ok i ∧
      ((∃ v rest, (i = .writeReset v rest ∨ i = .writeEnrst v rest) ∧ v.getLsbD 1 = true ∧
          ∃ r', t.block = .alive r' ∧ r'.status = 0x00000001#32) ∨
       (i = .shutdown ∧ t.block = .dead))

/-! ## Errors -/

/-- R126: an error reply leaves no trace in the registers. Whatever operation answers a next state with an error kind as
its reply, no register is written and no status bit changes, the ERROR bit among them (R127). Only the failed INIT
moves `life`, and that it does so from ABSENT to DEAD is the spec's own decision (R71, D5; log 17). -/
def Obligations.ErrorsLeaveNoTrace : Prop :=
  ∀ (i : Instr) (s t : State) (kind : ErrorKind) (buffer : Option (List Byte)),
    exec i s = .next t → Replied s t (.err kind) buffer →
    SameEnvironment s t ∧
    ((i = .init false ∧ kind = .outOfMemory ∧ s.life = .absent ∧ t.life = .dead) ∨
     (∃ r r', s.block = .alive r ∧ t.block = .alive r' ∧ RegistersHeld s.params.counterModel r r' ∧
       errorFlag r'.status = errorFlag r.status))

/-- R121 to R125: each error kind is reported when and only when its cause holds. A short READ reports SHORT_READ_ERROR
and is named apart. -/
def Obligations.ErrorKindsHaveTheirCauses : Prop :=
  ∀ (i : Instr) (s t : State), i.WellFormed → exec i s = .next t →
    ((∃ b, Replied s t (.err .outOfMemory) b) ↔
      i = .init false ∨ (∃ dst w, i = .read dst w ∧ dst.length < 4 ∧ s.params.shortReadError = .outOfMemory)) ∧
    ((∃ b, Replied s t (.err .invalidArgument) b) ↔
      (∃ src w, i = .writeReject src w ∧ (src.length < 4 ∨ w = false)) ∨
      (∃ dst w, i = .read dst w ∧ dst.length < 4 ∧ s.params.shortReadError = .invalidArgument)) ∧
    ((∃ b, Replied s t (.err .accessFault) b) ↔
      (∃ dst, i = .read dst false ∧ 4 ≤ dst.length) ∨
      (∃ dst w, i = .read dst w ∧ dst.length < 4 ∧ s.params.shortReadError = .accessFault))

/-- R118, R128: no terminal state. After any operation but SHUTDOWN that an ALIVE block performs, errors included, the
block is ALIVE and performs every operation but INIT, and one WRITE with `rst = 1`, whatever its word, brings READY. If
the operation's reply was an error, `status` is what it was. -/
def Obligations.TheBlockRemainsUsable : Prop :=
  ∀ (s t : State) (i j : Instr), s.life = .alive → i ≠ .shutdown → exec i s = .next t → (∀ ok, j ≠ .init ok) →
    t.life = .alive ∧ (∃ u, exec j t = .next u) ∧
    (∀ (v : Word) (rest : List Byte) (k : Instr), v.getLsbD 1 = true →
      decode t.params.byteOrder (writeRequest t.params.byteOrder v rest) = .ok k →
      ∃ u r, exec k t = .next u ∧ u.block = .alive r ∧ r.status = 0x00000001#32) ∧
    ∀ kind buffer, Replied s t (.err kind) buffer →
      ∃ r r', s.block = .alive r ∧ t.block = .alive r' ∧ r'.status = r.status

/-- R60, R130, R138: each step in which a call takes effect gives exactly one reply, to the agent that issued the call; the
lock is free afterwards and the parameters stand, so the byte order is not switched (R20, R33). -/
def Obligations.OneReplyPerOperation : Prop :=
  ∀ (s t u : State) (c : Call), s.lock = none → s.grant = (some c, u) → step s = .next t →
    t.lock = none ∧ t.params = s.params ∧ t.pending = u.pending ∧ t.schedule = u.schedule ∧
    ∃ response buffer, t.replies = ⟨some c.caller, response, buffer⟩ :: s.replies

/-- R22: which operation reaches which register. Where an operation starts and ends with an ALIVE block, a register it
changes is one the table lets it write: `control`, `status` or `counter` by an accepted WRITE, and `data` by none
(under a free counter `counter` is left aside). -/
def Obligations.OperationsReachOnlyTheirRegisters : Prop :=
  ∀ (i : Instr) (s t : State) (r r' : RegFile) (x : RegName), exec i s = .next t →
    s.block = .alive r → t.block = .alive r' → (x = .counter → s.params.counterModel = .frozen) →
    r'.get x ≠ r.get x →
    x ≠ .data ∧ ∃ v rest, i = .writeNop v rest ∨ i = .writeEnable v rest ∨ i = .writeReset v rest ∨ i = .writeEnrst v rest

/-! ## Counter under COUNTER_MODEL = free -/

/-- R114 (free), R136: immediately after INIT and after an accepted WRITE with `rst = 1` the counter is 0, under either
COUNTER_MODEL; and under `frozen` no other operation moves it: where an operation leaves an ALIVE block, either it is
INIT, which made the counter, or the block was ALIVE and the counter is as it was unless the operation is RESET or
ENRST. -/
def Obligations.CounterIsZeroAfterInitAndReset : Prop :=
  ∀ (i : Instr) (s t : State) (r' : RegFile), i.WellFormed → exec i s = .next t → t.block = .alive r' →
    ((∃ ok, i = .init ok) ∨ (∃ v rest, i = .writeReset v rest ∨ i = .writeEnrst v rest) → r'.counter = 0#32) ∧
    (s.params.counterModel = .frozen →
      (i = .init true ∧ s.life = .absent) ∨
      ∃ r, s.block = .alive r ∧
        (r'.counter ≠ r.counter → ∃ v rest, i = .writeReset v rest ∨ i = .writeEnrst v rest))

/-! ## Callers, ordering, progress -/

/-- R39: all operations take effect one at a time in a single total order that keeps each caller's own order. For any run,
under any order of the lock, there is a serialization of the calls that took effect such that serving them one after
another gives the same block (under the frozen counter) and tells every caller the same. -/
def Obligations.RunsAreSerializable : Prop :=
  ∀ (n : Nat) (s t : State), s.lock = none → s.params.counterModel = .frozen → runFor n s = .next t →
    ∃ (order : List Call) (u : State),
      (∀ a, callsOf a s.pending = callsOf a order ++ callsOf a t.pending) ∧
      serveAll order s = .next u ∧ u.block = t.block ∧ u.replies.map Reply.told = t.replies.map Reply.told

/-- R39, D11: every interleaving of whole operations is admitted. Any order of the waiting calls that keeps each caller's
own order is taken by some lock order, and the run then does what serving them in that order does. -/
def Obligations.EveryInterleavingIsAdmitted : Prop :=
  ∀ (s u : State) (order : List Call), s.lock = none → s.params.counterModel = .frozen →
    (∀ a, callsOf a order = callsOf a s.pending) → serveAll order s = .next u →
    ∃ (turns : List Agent) (t : State), runFor order.length { s with schedule := turns } = .next t ∧
      t.pending = [] ∧ t.block = u.block ∧ t.replies.map Reply.told = u.replies.map Reply.told

/-- R39, R40 (the source's concurrency property): when concurrent writers have issued command words with ENABLE or RESET
set and all have completed, the final status is the one the last completed write's command word dictates. The last
completed write is the one that got the newest reply: `c` is the last call of the caller that reply went to. -/
def Obligations.LastCompletedWriteDictatesStatus : Prop :=
  ∀ (n : Nat) (s t : State) (r : RegFile) (command : Call → Word), s.block = .alive r → s.lock = none →
    s.pending ≠ [] →
    (∀ c ∈ s.pending, c.request = writeRequest s.params.byteOrder (command c) [] ∧ command c &&& 3#32 ≠ 0#32) →
    runFor n s = .next t → t.pending = [] →
    ∃ c r', t.replies.head? = some ⟨some c.caller, .okCount 4, none⟩ ∧
      (callsOf c.caller s.pending).getLast? = some c ∧ t.block = .alive r' ∧ r'.control = command c ∧
      r'.status = if (command c).getLsbD 1 then 0x00000001#32 else 0x00000002#32

/-- R45: no operation blocks. From an ALIVE block with only clients' operations waiting, whatever the lock order, as many
steps as there are turns and waiting calls answer a next state in which every call has taken effect and each has had
its reply. The bound is the model's: that calls wait in a list (log 1, DESIGN CHOICE), that an agent's turn with no
waiting call takes one step, and that past the last turn a waiting call always gets the lock (log 2, DESIGN CHOICE). -/
def Obligations.EveryIssuedOperationTakesEffect : Prop :=
  ∀ (s : State) (r : RegFile), s.block = .alive r → s.lock = none → (∀ c ∈ s.pending, c.caller ≠ .system) →
    ∃ t, runFor (s.schedule.length + s.pending.length) s = .next t ∧ t.pending = [] ∧ t.life = .alive ∧
      t.replies.length = s.replies.length + s.pending.length

/-- R22, R156: a client can observe only `status`. Two machines that differ in `control`, `data` and `counter` alone stay so
over any run, or are refused alike: no reply ever tells them apart. -/
def Obligations.ClientsObserveOnlyStatus : Prop :=
  ∀ (n : Nat) (s t : State), SameToClients s t → AlikeOutcomes SameToClients (runFor n s) (runFor n t)

/-- R15, R135: one shared instance and equal callers. Whichever client issues an operation, it does the same to the block
and gets the same response and buffer; it is refused to all clients or to none. -/
def Obligations.AllCallersAreEqual : Prop :=
  ∀ (s : State) (m n : Nat) (q : ClientRequest),
    AlikeOutcomes
      (fun t u => t.block = u.block ∧ ∃ response buffer,
        t.replies = ⟨some (.client m), response, buffer⟩ :: s.replies ∧
        u.replies = ⟨some (.client n), response, buffer⟩ :: s.replies)
      (serve (.ofClient m q) s) (serve (.ofClient n q) s)

/-- R135, R16: INIT and SHUTDOWN are the system's and not the clients'. A call is INIT or SHUTDOWN exactly when the system
issues it (that its calls are these two only is log 19, DEDUCED), and a step that changes `life` served a call of the
system. -/
def Obligations.OnlyTheSystemChangesLife : Prop :=
  (∀ (o : ByteOrder) (c : Call) (i : Instr), decode o c.request = .ok i →
    (c.caller = .system ↔ (∃ ok, i = .init ok) ∨ i = .shutdown)) ∧
  ∀ s t : State, step s = .next t → t.life ≠ s.life →
    s.lock = none ∧ ∃ c u, s.grant = (some c, u) ∧ c.caller = .system

/-- R127: no error latches, counts or changes the outcome of a later operation. If an ALIVE block answers a call with an
error, then any later calls, one after another, leave the same block (under a free counter, `counter` is left aside)
and tell their callers the same as they would without that call, or are refused for the same reason. (A failed INIT
is not of this kind: the block is not ALIVE then, and R71 has it DEAD.) -/
def Obligations.ErrorsDoNotAffectLaterOperations : Prop :=
  ∀ (s t : State) (r : RegFile) (c : Call) (kind : ErrorKind) (buffer : Option (List Byte)) (later : List Call),
    s.block = .alive r → serve c s = .next t → t.replies = ⟨some c.caller, .err kind, buffer⟩ :: s.replies →
    AlikeOutcomes
      (fun u w => SameBlock s.params.counterModel u.block w.block ∧ ∃ given,
        u.replies.map Reply.told = given ++ t.replies.map Reply.told ∧
        w.replies.map Reply.told = given ++ s.replies.map Reply.told)
      (serveAll later t) (serveAll later s)
end

