-- ==== Sys2Proof/Laws/Flags.lean ====
section
/-! SUPPORT. What the status multiplexer and the counter engine select. -/

namespace Sys2Proof.Machine

@[simp] theorem commandOf_en (v : Word) : (commandOf v).en = v.getLsbD 0 := rfl
@[simp] theorem commandOf_rst (v : Word) : (commandOf v).rst = v.getLsbD 1 := rfl

@[simp] theorem statusMux_reset (en : Bool) (status : Word) : statusMux ⟨en, true⟩ status = READY := rfl
@[simp] theorem statusMux_enable (status : Word) : statusMux ⟨true, false⟩ status = BUSY := rfl
@[simp] theorem statusMux_held (status : Word) : statusMux ⟨false, false⟩ status = status := rfl

@[simp] theorem counterEngine_reset (m : CounterModel) (draw counter : Word) :
    counterEngine m draw true counter = 0#32 := rfl
@[simp] theorem counterEngine_frozen (draw counter : Word) :
    counterEngine .frozen draw false counter = counter := rfl

/-- Whatever the multiplexer selects is READY, BUSY or the old word (R94). -/
theorem statusMux_cases (c : Command) (status : Word) :
    (c.rst = true ∧ statusMux c status = READY) ∨
    (c.rst = false ∧ c.en = true ∧ statusMux c status = BUSY) ∨
    (c.rst = false ∧ c.en = false ∧ statusMux c status = status) := by
  obtain ⟨en, rst⟩ := c
  cases rst <;> cases en <;> simp

end Sys2Proof.Machine
end

