-- ==== Sys2Proof/Laws/Operands.lean ====
section
/-! SUPPORT. What the buffer operations do, and which instruction a WRITE decodes to. -/

namespace Sys2Proof

/-- The low two bits of a word, cut out. -/
theorem and_three_eq_setWidth (v : Word) : v &&& 3#32 = (v.extractLsb' 0 2).setWidth 32 := by
  have clear : ∀ j : Fin 32, 2 ≤ j.val → (3#32).getLsbD j.val = false := by decide
  apply BitVec.eq_of_getLsbD_eq
  intro i hi
  by_cases h : i < 2
  · interval_cases i <;> simp
  · have := clear ⟨i, hi⟩ (by simp; omega)
    simp only [BitVec.getLsbD_and, BitVec.getLsbD_setWidth, BitVec.getLsbD_extractLsb', this]
    simp; omega

/-- The two command bits are determined by the low two bits. -/
theorem getLsbD_zero_eq (v : Word) : v.getLsbD 0 = (v.extractLsb' 0 2).getLsbD 0 := by simp
theorem getLsbD_one_eq (v : Word) : v.getLsbD 1 = (v.extractLsb' 0 2).getLsbD 1 := by simp

/-- Each class is the value of the two command bits. -/
theorem and_three_cases (v : Word) :
    (v &&& 3#32 = 0#32 ↔ v.getLsbD 1 = false ∧ v.getLsbD 0 = false) ∧
    (v &&& 3#32 = 1#32 ↔ v.getLsbD 1 = false ∧ v.getLsbD 0 = true) ∧
    (v &&& 3#32 = 2#32 ↔ v.getLsbD 1 = true ∧ v.getLsbD 0 = false) ∧
    (v &&& 3#32 = 3#32 ↔ v.getLsbD 1 = true ∧ v.getLsbD 0 = true) := by
  rw [and_three_eq_setWidth, getLsbD_zero_eq, getLsbD_one_eq]
  generalize v.extractLsb' 0 2 = x
  revert x
  decide

/-- The class of a command word, from its two command bits (R57). -/
theorem classOf_eq (v : Word) :
    classOf v = some (match v.getLsbD 1, v.getLsbD 0 with
      | false, false => .nop
      | false, true => .enable
      | true, false => .reset
      | true, true => .enrst) := by
  obtain ⟨h0, h1, h2, h3⟩ := and_three_cases v
  cases hr : v.getLsbD 1 <;> cases he : v.getLsbD 0
  · simp [classOf, commandRows, CommandRow.matchesWord, h0.2 ⟨hr, he⟩]
  · simp [classOf, commandRows, CommandRow.matchesWord, h1.2 ⟨hr, he⟩]
  · simp [classOf, commandRows, CommandRow.matchesWord, h2.2 ⟨hr, he⟩]
  · simp [classOf, commandRows, CommandRow.matchesWord, h3.2 ⟨hr, he⟩]

/-- A buffer yields a transfer unit exactly when it holds four bytes (R54). -/
theorem memRead_eq_none_iff (src : List Byte) : memRead src = none ↔ src.length < 4 := by
  match src with
  | [] => simp [memRead]
  | [_] => simp [memRead]
  | [_, _] => simp [memRead]
  | [_, _, _] => simp [memRead]
  | _ :: _ :: _ :: _ :: _ => simp [memRead]

@[simp] theorem memRead_unit (u : TransferUnit) (rest : List Byte) :
    memRead (u.toList ++ rest) = some (u, rest) := rfl

@[simp] theorem memRead_cons (b0 b1 b2 b3 : Byte) (rest : List Byte) :
    memRead (b0 :: b1 :: b2 :: b3 :: rest) = some (⟨b0, b1, b2, b3⟩, rest) := rfl

/-- The bytes a buffer gave are the bytes it held. -/
theorem memRead_eq_some {src rest : List Byte} {u : TransferUnit} (h : memRead src = some (u, rest)) :
    src = u.toList ++ rest := by
  match src with
  | [] => simp [memRead] at h
  | [_] => simp [memRead] at h
  | [_, _] => simp [memRead] at h
  | [_, _, _] => simp [memRead] at h
  | _ :: _ :: _ :: _ :: _ => simp [memRead] at h; obtain ⟨rfl, rfl⟩ := h; rfl

/-- The request of a client's WRITE (R51, R54). -/
theorem writeRequest_eq (o : ByteOrder) (v : Word) (rest : List Byte) :
    writeRequest o v rest = .write ((bytesOf o v).toList ++ rest) true := rfl

/-- An accepted WRITE is neither INIT nor SHUTDOWN. -/
theorem CommandClass.toInstr_ne (c : CommandClass) (v : Word) (rest : List Byte) :
    (∀ ok, c.toInstr v rest ≠ .init ok) ∧ c.toInstr v rest ≠ .shutdown := by
  cases c <;> simp [CommandClass.toInstr]

/-- A WRITE request decodes to a WRITE: never to INIT and never to SHUTDOWN. -/
theorem decodeWrite_ne (o : ByteOrder) (src : List Byte) (w : Bool) :
    (∀ ok, decodeWrite o src w ≠ .ok (.init ok)) ∧ decodeWrite o src w ≠ .ok .shutdown := by
  unfold decodeWrite
  split
  · simp
  · split
    · rw [classOf_eq]
      simp [-Bool.forall_bool, CommandClass.toInstr_ne]
    · simp

/-- Only an INIT request decodes to INIT (R50). -/
theorem decode_eq_init_iff {o : ByteOrder} {q : Request} {ok : Bool} :
    decode o q = .ok (.init ok) ↔ q = .init ok := by
  cases q <;> simp [decode, decodeWrite_ne]

/-- Only a SHUTDOWN request decodes to SHUTDOWN (R50). -/
theorem decode_eq_shutdown_iff {o : ByteOrder} {q : Request} :
    decode o q = .ok .shutdown ↔ q = .shutdown := by
  cases q <;> simp [decode, decodeWrite_ne]

namespace Machine

@[simp] theorem holdsUnit_eq_true (buffer : List Byte) : holdsUnit buffer = true ↔ 4 ≤ buffer.length := by
  simp [holdsUnit]

/-- A READ's copy writes the first four bytes and leaves the rest (R55, D7). -/
theorem memWrite_cons (b0 b1 b2 b3 : Byte) (rest : List Byte) (u : TransferUnit) :
    memWrite (b0 :: b1 :: b2 :: b3 :: rest) u = u.b0 :: u.b1 :: u.b2 :: u.b3 :: rest := rfl

@[simp] theorem faultedBuffer_length (draw length : Nat) : (faultedBuffer draw length).length = length := by
  simp [faultedBuffer]

end Machine
end Sys2Proof
end

