-- ==== Sys2Proof/Laws/State.lean ====
section
/-! SUPPORT. One lemma per field per update of the state. -/

namespace Sys2Proof.Machine

section setRegs
variable (s : State) (r : RegFile)
@[simp] theorem State.setRegs_block : (s.setRegs r).block = .alive r := rfl
@[simp] theorem State.setRegs_lock : (s.setRegs r).lock = s.lock := rfl
@[simp] theorem State.setRegs_params : (s.setRegs r).params = s.params := rfl
@[simp] theorem State.setRegs_pending : (s.setRegs r).pending = s.pending := rfl
@[simp] theorem State.setRegs_schedule : (s.setRegs r).schedule = s.schedule := rfl
@[simp] theorem State.setRegs_replies : (s.setRegs r).replies = s.replies := rfl
@[simp] theorem State.setRegs_draws : (s.setRegs r).draws = s.draws := rfl
end setRegs

section setBlock
variable (s : State) (b : Block)
@[simp] theorem State.setBlock_block : (s.setBlock b).block = b := rfl
@[simp] theorem State.setBlock_lock : (s.setBlock b).lock = s.lock := rfl
@[simp] theorem State.setBlock_params : (s.setBlock b).params = s.params := rfl
@[simp] theorem State.setBlock_pending : (s.setBlock b).pending = s.pending := rfl
@[simp] theorem State.setBlock_schedule : (s.setBlock b).schedule = s.schedule := rfl
@[simp] theorem State.setBlock_replies : (s.setBlock b).replies = s.replies := rfl
@[simp] theorem State.setBlock_draws : (s.setBlock b).draws = s.draws := rfl
end setBlock

section hold
variable (s : State) (r : RegFile)
@[simp] theorem State.hold_block :
    (s.hold r).block = .alive { r with counter := s.nextCounter false r.counter } := rfl
@[simp] theorem State.hold_lock : (s.hold r).lock = s.lock := rfl
@[simp] theorem State.hold_params : (s.hold r).params = s.params := rfl
@[simp] theorem State.hold_pending : (s.hold r).pending = s.pending := rfl
@[simp] theorem State.hold_schedule : (s.hold r).schedule = s.schedule := rfl
@[simp] theorem State.hold_replies : (s.hold r).replies = s.replies := rfl
@[simp] theorem State.hold_draws : (s.hold r).draws = s.draws := rfl
end hold

section respond
variable (s : State) (response : Response) (buffer : Option (List Byte))
@[simp] theorem State.respond_block : (s.respond response buffer).block = s.block := rfl
@[simp] theorem State.respond_lock : (s.respond response buffer).lock = s.lock := rfl
@[simp] theorem State.respond_params : (s.respond response buffer).params = s.params := rfl
@[simp] theorem State.respond_pending : (s.respond response buffer).pending = s.pending := rfl
@[simp] theorem State.respond_schedule : (s.respond response buffer).schedule = s.schedule := rfl
@[simp] theorem State.respond_replies :
    (s.respond response buffer).replies = ⟨s.lock, response, buffer⟩ :: s.replies := rfl
@[simp] theorem State.respond_draws : (s.respond response buffer).draws = s.draws := rfl
end respond

section lock
variable (s : State) (a : Agent)
@[simp] theorem State.acquire_block : (s.acquire a).block = s.block := rfl
@[simp] theorem State.acquire_lock : (s.acquire a).lock = some a := rfl
@[simp] theorem State.acquire_params : (s.acquire a).params = s.params := rfl
@[simp] theorem State.acquire_pending : (s.acquire a).pending = s.pending := rfl
@[simp] theorem State.acquire_schedule : (s.acquire a).schedule = s.schedule := rfl
@[simp] theorem State.acquire_replies : (s.acquire a).replies = s.replies := rfl
@[simp] theorem State.acquire_draws : (s.acquire a).draws = s.draws := rfl
@[simp] theorem State.release_block : s.release.block = s.block := rfl
@[simp] theorem State.release_lock : s.release.lock = none := rfl
@[simp] theorem State.release_params : s.release.params = s.params := rfl
@[simp] theorem State.release_pending : s.release.pending = s.pending := rfl
@[simp] theorem State.release_schedule : s.release.schedule = s.schedule := rfl
@[simp] theorem State.release_replies : s.release.replies = s.replies := rfl
@[simp] theorem State.release_draws : s.release.draws = s.draws + 1 := rfl
end lock

section call
variable (n : Nat) (p : SystemRequest) (q : ClientRequest)
@[simp] theorem Call.caller_ofSystem : (Call.ofSystem p).caller = .system := rfl
@[simp] theorem Call.caller_ofClient : (Call.ofClient n q).caller = .client n := rfl
@[simp] theorem Call.request_ofSystem : (Call.ofSystem p).request = p.toRequest := rfl
@[simp] theorem Call.request_ofClient : (Call.ofClient n q).request = q.toRequest := rfl
end call

end Sys2Proof.Machine
end

