-- ==== Sys2Proof/Laws/Ops.lean ====
section
/-! SUPPORT. What each shared operation can do, said once. -/

namespace Sys2Proof.Machine

/-- An operation gated on ALIVE runs on the registers of an ALIVE block. -/
theorem ifAlive_of_alive {s : State} {r : RegFile} (operation : RegFile → State) (h : s.block = .alive r) :
    ifAlive s operation = .next (operation r) := by
  simp [ifAlive, h]

/-- It answers a next state only from an ALIVE block, and then what the operation gives. -/
theorem ifAlive_next_iff {s t : State} {operation : RegFile → State} :
    ifAlive s operation = .next t ↔ ∃ r, s.block = .alive r ∧ t = operation r := by
  unfold ifAlive
  cases h : s.block <;> simp [eq_comm]

/-- An accepted WRITE answers a next state only from an ALIVE block: the datapath's registers and `Ok(4)`. -/
theorem acceptWrite_next_iff {s t : State} {v : Word} :
    acceptWrite v s = .next t ↔ ∃ r, s.block = .alive r ∧
      t = (s.setRegs (r.accept s.params.counterModel (Config.freeCounter s.draws) v)).respond (.okCount 4) none :=
  ifAlive_next_iff

/-- Without a reset a frozen counter is held. -/
theorem State.nextCounter_frozen {s : State} (h : s.params.counterModel = .frozen) (counter : Word) :
    s.nextCounter false counter = counter := by
  simp [State.nextCounter, h]

/-- The call taken is the agent's first: the calls before it are other agents', and the rest keep their order. -/
theorem takeCall_eq_some {a : Agent} {calls rest : List Call} {c : Call} (h : takeCall a calls = some (c, rest)) :
    c.caller = a ∧ ∃ before after, calls = before ++ c :: after ∧ rest = before ++ after ∧
      ∀ d ∈ before, d.caller ≠ a := by
  induction calls generalizing rest with
  | nil => simp [takeCall] at h
  | cons d ds ih =>
    unfold takeCall at h
    split at h
    · rename_i hd
      simp only [Option.some.injEq, Prod.mk.injEq] at h
      obtain ⟨rfl, rfl⟩ := h
      exact ⟨hd, [], ds, by simp⟩
    · rename_i hd
      simp only [Option.map_eq_some_iff, Prod.mk.injEq, Prod.exists] at h
      obtain ⟨c', rest', h', rfl, rfl⟩ := h
      obtain ⟨hc, before, after, rfl, rfl, hb⟩ := ih h'
      refine ⟨hc, d :: before, after, by simp, by simp, ?_⟩
      intro e he
      obtain rfl | he := List.mem_cons.mp he
      · exact hd
      · exact hb e he

/-- No call is taken exactly when the agent has none waiting. -/
theorem takeCall_eq_none {a : Agent} {calls : List Call} :
    takeCall a calls = none ↔ ∀ c ∈ calls, c.caller ≠ a := by
  induction calls with
  | nil => simp [takeCall]
  | cons d ds ih =>
    unfold takeCall
    split
    · rename_i hd; simp [hd]
    · rename_i hd; simp [hd, ih]

/-- The first call of an agent is the one taken. -/
theorem takeCall_append {a : Agent} {before after : List Call} {c : Call} (hb : ∀ d ∈ before, d.caller ≠ a)
    (hc : c.caller = a) : takeCall a (before ++ c :: after) = some (c, before ++ after) := by
  induction before with
  | nil => simp [takeCall, hc]
  | cons d ds ih =>
    have hd : d.caller ≠ a := hb d (by simp)
    have := ih fun e he => hb e (by simp [he])
    simp [takeCall, hd, this]

/-- What a grant can be: a call of the agent whose turn it is, taken out, or no call; of the state only the turns and
the waiting calls are touched. -/
theorem State.grant_cases (s : State) :
    (∃ c before after, s.grant = (some c, { s with schedule := s.schedule.tail, pending := before ++ after }) ∧
      s.nextCaller = some c.caller ∧ s.pending = before ++ c :: after ∧ ∀ d ∈ before, d.caller ≠ c.caller) ∨
    (s.grant = (none, { s with schedule := s.schedule.tail }) ∧
      (s.schedule = [] → s.pending = []) ∧ ∀ a, s.nextCaller = some a → ∀ c ∈ s.pending, c.caller ≠ a) := by
  unfold State.grant
  cases hn : s.nextCaller with
  | none =>
    have hs : s.schedule = [] := by
      unfold State.nextCaller at hn
      split at hn
      · simp at hn
      · assumption
    refine .inr ⟨by obtain ⟨⟩ := s; simp_all, fun _ => ?_, by simp⟩
    simp only [State.nextCaller, hs, Option.map_eq_none_iff, List.getElem?_eq_none_iff] at hn
    by_contra hp
    have : 0 < s.pending.length := List.length_pos_iff.mpr hp
    exact absurd (Nat.mod_lt (Config.lockChoice s.draws) this) (by omega)
  | some a =>
    cases ht : takeCall a s.pending with
    | none =>
      refine .inr ⟨by simp [ht], fun hs => ?_, ?_⟩
      · simp only [State.nextCaller, hs, Option.map_eq_some_iff] at hn
        obtain ⟨c, hc, rfl⟩ := hn
        exact absurd rfl (takeCall_eq_none.mp ht c (List.mem_of_getElem? hc))
      · intro b hb c hc
        obtain rfl : a = b := by simpa using hb
        exact takeCall_eq_none.mp ht c hc
    | some p =>
      obtain ⟨c, rest⟩ := p
      obtain ⟨rfl, before, after, hp, rfl, hb⟩ := takeCall_eq_some ht
      exact .inl ⟨c, before, after, by simp [ht], rfl, hp, hb⟩

/-- A step without an operation: what it leaves. -/
theorem State.idle_eq (s : State) :
    s.idle.lock = s.lock ∧ s.idle.params = s.params ∧ s.idle.pending = s.pending ∧
    s.idle.schedule = s.schedule ∧ s.idle.replies = s.replies ∧ s.idle.draws = s.draws + 1 ∧
    s.idle.block = match s.block with
      | .absent => .absent
      | .alive r => .alive { r with counter := s.nextCounter false r.counter }
      | .dead => .dead := by
  unfold State.idle
  cases s.block <;> simp

/-- An operation is left only with a next state, its lock released. -/
theorem leave_next_iff {o : Host.Outcome State Fault Refusal} {t : State} :
    leave o = .next t ↔ ∃ u, o = .next u ∧ t = u.release := by
  cases o <;> simp [leave, eq_comm]

end Sys2Proof.Machine
end

