-- ==== Sys2Proof/Laws/PerInstr.lean ====
section
/-! SUPPORT. Lemmas made per constructor of `Instr`: the buffer length `L` a request states. -/

namespace Sys2Proof

/-- The length `L` of the buffer a request hands over (R50): 0 for the kinds without one. -/
def Request.bufferLength : Request → Nat
  | .init _ => 0
  | .shutdown => 0
  | .openSession => 0
  | .closeSession => 0
  | .read dst _ => dst.length
  | .write src _ => src.length

/-- The length `L` an instruction was given (R54): an accepted WRITE has its four bytes and the rest. -/
def Instr.bufferLength : Instr → Nat
  | .init _ => 0
  | .shutdown => 0
  | .openSession => 0
  | .closeSession => 0
  | .read dst _ => dst.length
  | .writeNop _ rest => 4 + rest.length
  | .writeEnable _ rest => 4 + rest.length
  | .writeReset _ rest => 4 + rest.length
  | .writeEnrst _ rest => 4 + rest.length
  | .writeReject src _ => src.length

namespace Laws.EncodedLength

/-- Encoding keeps the buffer length, under either byte order. -/
def Statement (i : Instr) : Prop := ∀ o, (encode o i).bufferLength = i.bufferLength

theorem writeRequest_bufferLength (o : ByteOrder) (v : Word) (rest : List Byte) :
    (writeRequest o v rest).bufferLength = 4 + rest.length := by
  simp [writeRequest_eq, Request.bufferLength, TransferUnit.toList]; omega

theorem init (allocOk : Bool) : Statement (.init allocOk) := fun _ => rfl
theorem shutdown : Statement .shutdown := fun _ => rfl
theorem openSession : Statement .openSession := fun _ => rfl
theorem closeSession : Statement .closeSession := fun _ => rfl
theorem read (dst : List Byte) (dstWritable : Bool) : Statement (.read dst dstWritable) := fun _ => rfl
theorem writeNop (v : Word) (rest : List Byte) : Statement (.writeNop v rest) :=
  fun o => writeRequest_bufferLength o v rest
theorem writeEnable (v : Word) (rest : List Byte) : Statement (.writeEnable v rest) :=
  fun o => writeRequest_bufferLength o v rest
theorem writeReset (v : Word) (rest : List Byte) : Statement (.writeReset v rest) :=
  fun o => writeRequest_bufferLength o v rest
theorem writeEnrst (v : Word) (rest : List Byte) : Statement (.writeEnrst v rest) :=
  fun o => writeRequest_bufferLength o v rest
theorem writeReject (src : List Byte) (srcReadable : Bool) : Statement (.writeReject src srcReadable) := fun _ => rfl

end Laws.EncodedLength
end Sys2Proof
end

