-- ==== Sys2Proof/Laws/Step.lean ====
section
/-! SUPPORT. What an instruction, a served call and a step can do, said once. -/

namespace Sys2Proof.Machine

/-- The instruction writes no register (R22): OPEN, CLOSE, READ and a rejected WRITE. -/
def HoldsRegisters (i : Instr) : Prop :=
  i = .openSession ∨ i = .closeSession ∨ (∃ dst w, i = .read dst w) ∨ ∃ src w, i = .writeReject src w

/-- The ways an instruction that answers a next state changes the block, from that of `s` to `b`. -/
inductive BlockChange (s : State) (i : Instr) (b : Block) : Prop where
  | created (instr : i = .init true) (before : s.block = .absent) (after : b = .alive initialRegs)
  | failed (instr : i = .init false) (before : s.block = .absent) (after : b = .dead)
  | ended (r : RegFile) (instr : i = .shutdown) (before : s.block = .alive r) (after : b = .dead)
  | accepted (r : RegFile) (c : CommandClass) (v : Word) (rest : List Byte) (instr : i = c.toInstr v rest)
      (before : s.block = .alive r)
      (after : b = .alive (r.accept s.params.counterModel (Config.freeCounter s.draws) v))
  | held (r : RegFile) (instr : HoldsRegisters i) (before : s.block = .alive r)
      (after : b = .alive { r with counter := s.nextCounter false r.counter })

/-- A READ answers a next state only from an ALIVE block, and leaves the registers held with one of three replies. -/
theorem execRead_next {dst : List Byte} {w : Bool} {s t : State} (h : execRead dst w s = .next t) :
    ∃ r, s.block = .alive r ∧
      ((4 ≤ dst.length ∧ w = true ∧ t = (s.hold r).respond (.okRead 4 (bytesOf s.params.byteOrder r.status))
          (some (memWrite dst (bytesOf s.params.byteOrder r.status)))) ∨
       (4 ≤ dst.length ∧ w = false ∧
          t = (s.hold r).respond (.err .accessFault) (some (faultedBuffer s.draws dst.length))) ∨
       (dst.length < 4 ∧ t = (s.hold r).respond (.err s.params.shortReadError) (some dst))) := by
  obtain ⟨r, hr, rfl⟩ := ifAlive_next_iff.mp h
  refine ⟨r, hr, ?_⟩
  by_cases hl : 4 ≤ dst.length
  · cases w
    · simp [hl, raise]
    · simp [hl]
  · have : holdsUnit dst = false := by simpa [holdsUnit] using hl
    simp [this, raise, Nat.lt_of_not_le hl, hl]

/-- An instruction that answers a next state changes the block in one of the ways above, gives one reply to the holder
of the lock, and leaves what surrounds the block alone. -/
theorem exec_next {i : Instr} {s t : State} (h : exec i s = .next t) :
    BlockChange s i t.block ∧ SameEnvironment s t ∧ ∃ response buffer, Replied s t response buffer := by
  cases i with
  | init ok =>
    simp only [exec, execInit] at h
    cases hb : s.block <;> simp only [hb, reduceCtorEq] at h
    cases ok <;> simp at h <;> subst h
    · exact ⟨.failed rfl hb rfl, ⟨rfl, rfl, rfl, rfl, rfl⟩, _, _, rfl⟩
    · exact ⟨.created rfl hb rfl, ⟨rfl, rfl, rfl, rfl, rfl⟩, _, _, rfl⟩
  | shutdown =>
    obtain ⟨r, hr, rfl⟩ := ifAlive_next_iff.mp h
    exact ⟨.ended r rfl hr rfl, ⟨rfl, rfl, rfl, rfl, rfl⟩, _, _, rfl⟩
  | openSession =>
    obtain ⟨r, hr, rfl⟩ := ifAlive_next_iff.mp h
    exact ⟨.held r (by simp [HoldsRegisters]) hr rfl, ⟨rfl, rfl, rfl, rfl, rfl⟩, _, _, rfl⟩
  | closeSession =>
    obtain ⟨r, hr, rfl⟩ := ifAlive_next_iff.mp h
    exact ⟨.held r (by simp [HoldsRegisters]) hr rfl, ⟨rfl, rfl, rfl, rfl, rfl⟩, _, _, rfl⟩
  | read dst w =>
    obtain ⟨r, hr, ⟨-, -, rfl⟩ | ⟨-, -, rfl⟩ | ⟨-, rfl⟩⟩ := execRead_next h
    all_goals exact ⟨.held r (by simp [HoldsRegisters]) hr rfl, ⟨rfl, rfl, rfl, rfl, rfl⟩, _, _, rfl⟩
  | writeNop v rest =>
    obtain ⟨r, hr, rfl⟩ := acceptWrite_next_iff.mp h
    exact ⟨.accepted r .nop v rest rfl hr rfl, ⟨rfl, rfl, rfl, rfl, rfl⟩, _, _, rfl⟩
  | writeEnable v rest =>
    obtain ⟨r, hr, rfl⟩ := acceptWrite_next_iff.mp h
    exact ⟨.accepted r .enable v rest rfl hr rfl, ⟨rfl, rfl, rfl, rfl, rfl⟩, _, _, rfl⟩
  | writeReset v rest =>
    obtain ⟨r, hr, rfl⟩ := acceptWrite_next_iff.mp h
    exact ⟨.accepted r .reset v rest rfl hr rfl, ⟨rfl, rfl, rfl, rfl, rfl⟩, _, _, rfl⟩
  | writeEnrst v rest =>
    obtain ⟨r, hr, rfl⟩ := acceptWrite_next_iff.mp h
    exact ⟨.accepted r .enrst v rest rfl hr rfl, ⟨rfl, rfl, rfl, rfl, rfl⟩, _, _, rfl⟩
  | writeReject src w =>
    obtain ⟨r, hr, rfl⟩ := ifAlive_next_iff.mp h
    exact ⟨.held r (by simp [HoldsRegisters]) hr rfl, ⟨rfl, rfl, rfl, rfl, rfl⟩, _, _, rfl⟩

/-- A served call that answers a next state ran the instruction its request decodes to, and released the lock. -/
theorem serve_next_iff {c : Call} {s t : State} :
    serve c s = .next t ↔ ∃ i u, decode s.params.byteOrder c.request = .ok i ∧
      exec i (s.acquire c.caller) = .next u ∧ t = u.release := by
  unfold serve
  cases hd : decode s.params.byteOrder c.request with
  | error e => simp
  | ok i => simp [leave_next_iff]

/-- With the lock free, the granted call is served. -/
theorem step_of_granted {s u : State} {c : Call} (hl : s.lock = none) (hg : s.grant = (some c, u)) :
    step s = serve c u := by
  unfold step; rw [hl]; simp only; rw [hg]

/-- With the lock free and no call to grant, nothing takes effect. -/
theorem step_of_no_grant {s u : State} (hl : s.lock = none) (hg : s.grant = (none, u)) :
    step s = .next u.idle := by
  unfold step; rw [hl]; simp only; rw [hg]

/-- What one step that answers a next state was: a wait for the lock, a turn in which no call took effect, or the whole
effect of one granted call. -/
theorem step_next {s t : State} (h : step s = .next t) :
    (s.lock ≠ none ∧ t = s.idle) ∨
    (s.lock = none ∧ ∃ u, s.grant = (none, u) ∧ t = u.idle) ∨
    (s.lock = none ∧ ∃ c u, s.grant = (some c, u) ∧ serve c u = .next t) := by
  unfold step at h
  cases hl : s.lock with
  | some a =>
    simp only [hl, Host.Outcome.next.injEq] at h
    exact .inl ⟨by simp, h.symm⟩
  | none =>
    rcases hg : s.grant with ⟨c, u⟩
    cases c with
    | none =>
      simp only [hl, hg, Host.Outcome.next.injEq] at h
      exact .inr (.inl ⟨rfl, u, rfl, h.symm⟩)
    | some c =>
      simp only [hl, hg] at h
      exact .inr (.inr ⟨rfl, c, u, rfl, h⟩)

/-- One step, then the rest of the run. -/
theorem runFor_succ_next_iff {k : Nat} {s t : State} :
    runFor (k + 1) s = .next t ↔ ∃ u, step s = .next u ∧ runFor k u = .next t := by
  cases hs : step s <;> simp [runFor, hs]

/-- What holds at the start of a run and is kept by every step holds at its end. -/
theorem runFor_induction {P : State → Prop} (keep : ∀ s t, P s → step s = .next t → P t) {n : Nat} {s t : State}
    (start : P s) (h : runFor n s = .next t) : P t := by
  induction n generalizing s with
  | zero => simp only [runFor, Host.Outcome.next.injEq] at h; exact h ▸ start
  | succ k ih =>
    obtain ⟨u, hu, hk⟩ := runFor_succ_next_iff.mp h
    exact ih (keep s u start hu) hk

end Sys2Proof.Machine
end

