-- ==== Sys2Proof/Tests/Slice0.lean ====
section
/-! SUPPORT. Checks of the model against the vectors of spec/95_test_vectors.md, the smoke test of WellFormed, and a
witness for the hypotheses of every obligation that has some. -/

namespace Sys2Proof.Tests

open Sys2Proof Sys2Proof.Machine

/-- An ALIVE block with the given registers, everything else as after reset. -/
def aliveWith (control status data counter : Word) : State :=
  { State.reset with block := .alive ⟨control, status, data, counter⟩ }

/-- After `WR 0x00000001`: `(1, 2, 0, 0)`. -/
def busy : State := aliveWith 1 2 0 0

/-- The same machine on a big-endian host. -/
def bigBusy : State := { busy with params := { busy.params with byteOrder := .big } }

/-- Before INIT and after SHUTDOWN. -/
def absent : State := State.beforeInit defaultParams
def dead : State := { absent with block := .dead }

/-- What an outcome left in the registers, and what it told last. -/
def regsOf : Host.Outcome State Fault Refusal → Option RegFile
  | .next s => s.regs?
  | .fault _ => none
  | .refused _ => none

def lifeOf : Host.Outcome State Fault Refusal → Option Life
  | .next s => some s.life
  | .fault _ => none
  | .refused _ => none

def toldBy : Host.Outcome State Fault Refusal → Option Reply
  | .next s => s.replies.head?
  | .fault _ => none
  | .refused _ => none

def refusalOf : Host.Outcome State Fault Refusal → Option Refusal
  | .next _ => none
  | .fault _ => none
  | .refused r => some r

/-! ## WellFormed refuses an ill-formed term for each of its checks -/

theorem test_wf_nop_refuses_enable_bit : ¬ (Instr.writeNop 0x00000005#32 []).WellFormed := by decide
theorem test_wf_enable_refuses_no_bit : ¬ (Instr.writeEnable 0x00000004#32 []).WellFormed := by decide
theorem test_wf_reset_refuses_both_bits : ¬ (Instr.writeReset 0xFFFFFFFF#32 []).WellFormed := by decide
theorem test_wf_enrst_refuses_reset_alone : ¬ (Instr.writeEnrst 0x00000002#32 []).WellFormed := by decide
theorem test_wf_reject_refuses_acceptable_write : ¬ (Instr.writeReject [2, 0, 0, 0] true).WellFormed := by decide
theorem test_wf_reject_takes_short_and_unreadable :
    (Instr.writeReject [2, 0, 0] true).WellFormed ∧ (Instr.writeReject [2, 0, 0, 0] false).WellFormed := by decide

/-! ## Decoding (vectors 2.1, X7, X8) -/

theorem test_decode_nop_big : decode .big (.write [0xFF, 0xFF, 0xFF, 0xFC] true) = .ok (.writeNop 0xFFFFFFFC#32 []) := by
  decide
theorem test_decode_enable_little : decode .little (.write [0x01, 0, 0, 0] true) = .ok (.writeEnable 0x00000001#32 []) := by
  decide
theorem test_decode_reset_little_eight_bytes :
    decode .little (.write [2, 0, 0, 0, 1, 0, 0, 0] true) = .ok (.writeReset 0x00000002#32 [1, 0, 0, 0]) := by decide
theorem test_decode_reset_bytes_big_are_nop :
    decode .big (.write [2, 0, 0, 0, 1, 0, 0, 0] true) = .ok (.writeNop 0x02000000#32 [1, 0, 0, 0]) := by decide
theorem test_decode_enrst_little : decode .little (.write [0xEF, 0xBE, 0xAD, 0xDE] true)
    = .ok (.writeEnrst 0xDEADBEEF#32 []) := by decide
theorem test_decode_reject_unreadable : decode .little (.write [2, 0, 0, 0] false)
    = .ok (.writeReject [2, 0, 0, 0] false) := by decide
theorem test_decode_reject_three_bytes : decode .big (.write [2, 0, 0] true) = .ok (.writeReject [2, 0, 0] true) := by
  decide
theorem test_decode_read : decode .little (.read [7, 7] false) = .ok (.read [7, 7] false) := by decide
theorem test_decode_lifecycle : decode .big (.init true) = .ok (.init true) ∧ decode .big .shutdown = .ok .shutdown ∧
    decode .big .openSession = .ok .openSession ∧ decode .big .closeSession = .ok .closeSession := by decide
/-- The CW rows of the opcode table do not overlap. -/
theorem test_command_rows_disjoint :
    commandRows.Pairwise fun a b => a.mask = b.mask ∧ a.pattern ≠ b.pattern := by decide
theorem test_table_word_enable : decodeTableWord 32 0x00000001 = some (.writeEnable 0x00000001#32 []) := by decide
theorem test_table_word_reserved_bits : decodeTableWord 32 0x80000002 = some (.writeReset 0x80000002#32 []) := by decide

/-! ## One step or one operation (vectors 2.2 to 2.5) -/

/-- The step runs the fetched word first after reset, in the order the bytes were laid out. -/
theorem test_step_runs_fetched_word :
    regsOf (step (State.reset.withFetchWord 32 0xFFFFFFFD)) = some ⟨0xFFFFFFFD#32, 2#32, 0#32, 0#32⟩ := by decide
theorem test_step_runs_fetched_word_big :
    regsOf (step (bigBusy.withFetchWord 32 0x80000002)) = some ⟨0x80000002#32, 1#32, 0#32, 0#32⟩ := by decide
/-- A turn of an agent with no waiting call leaves the registers. -/
theorem test_step_idle_turn : regsOf (step { busy with schedule := [.system] }) = some ⟨1#32, 2#32, 0#32, 0#32⟩ := by
  decide

/-- Y1. -/
theorem test_init : regsOf (exec (.init true) absent) = some ⟨0#32, 1#32, 0#32, 0#32⟩ := by decide
/-- Y2. -/
theorem test_init_fails : toldBy (exec (.init false) absent) = some ⟨none, .err .outOfMemory, none⟩ ∧
    lifeOf (exec (.init false) absent) = some .dead := by decide
/-- Y5, Y3, Y9. -/
theorem test_refusals : refusalOf (exec (.init true) busy) = some .alreadyConstructed ∧
    refusalOf (exec (.read [0, 0, 0, 0] true) absent) = some .instanceAbsent ∧
    refusalOf (exec (.init true) dead) = some .instanceDead := by decide
/-- Y8. -/
theorem test_shutdown : lifeOf (exec .shutdown busy) = some .dead ∧ regsOf (exec .shutdown busy) = none := by decide
/-- Y6, Y7. -/
theorem test_open : regsOf (exec .openSession busy) = some ⟨1#32, 2#32, 0#32, 0#32⟩ := by decide
theorem test_close : regsOf (exec .closeSession busy) = some ⟨1#32, 2#32, 0#32, 0#32⟩ := by decide
/-- Q2 and Q3, little-endian: offsets 4 and above untouched. -/
theorem test_read_little : toldBy (exec (.read [9, 9, 9, 9, 9, 8] true) busy)
    = some ⟨none, .okRead 4 ⟨2, 0, 0, 0⟩, some [2, 0, 0, 0, 9, 8]⟩ := by decide
/-- Q2, big-endian. -/
theorem test_read_big : toldBy (exec (.read [9, 9, 9, 9] true) bigBusy)
    = some ⟨none, .okRead 4 ⟨0, 0, 0, 2⟩, some [0, 0, 0, 2]⟩ := by decide
/-- Q7: the length is tested first. -/
theorem test_read_short : toldBy (exec (.read [9, 9] false) busy)
    = some ⟨none, .err .invalidArgument, some [9, 9]⟩ := by decide
/-- Q4. -/
theorem test_read_fault : (toldBy (exec (.read [9, 9, 9, 9] false) busy)).map Reply.response
    = some (.err .accessFault) := by decide
/-- W5. -/
theorem test_nop_does_not_end_busy :
    regsOf (exec (.writeNop 0#32 []) busy) = some ⟨0#32, 2#32, 0#32, 0#32⟩ := by decide
/-- W15. -/
theorem test_nop_bit_two_is_not_error :
    regsOf (exec (.writeNop 4#32 []) (aliveWith 0xFFFFFFFF 1 0 0)) = some ⟨4#32, 1#32, 0#32, 0#32⟩ := by decide
/-- W18. -/
theorem test_enable_leaves_counter :
    regsOf (exec (.writeEnable 1#32 []) (aliveWith 0 1 0 7)) = some ⟨1#32, 2#32, 0#32, 7#32⟩ := by decide
/-- W22. -/
theorem test_enable_clears_error :
    regsOf (exec (.writeEnable 1#32 []) (aliveWith 0 4 0 0)) = some ⟨1#32, 2#32, 0#32, 0#32⟩ := by decide
/-- W19. -/
theorem test_reset_clears_counter :
    regsOf (exec (.writeReset 2#32 []) (aliveWith 0 2 0 7)) = some ⟨2#32, 1#32, 0#32, 0#32⟩ := by decide
/-- W25. -/
theorem test_enrst_holds_data :
    regsOf (exec (.writeEnrst 0xFFFFFFFF#32 []) (aliveWith 0 1 0x55 0)) = some ⟨0xFFFFFFFF#32, 1#32, 0x55#32, 0#32⟩ := by
  decide
/-- X4. -/
theorem test_reject_short : regsOf (exec (.writeReject [2, 0, 0] true) busy) = some ⟨1#32, 2#32, 0#32, 0#32⟩ := by decide
/-- X5. -/
theorem test_reject_unreadable : toldBy (exec (.writeReject [2, 0, 0, 0] false) busy)
    = some ⟨none, .err .invalidArgument, none⟩ := by decide

/-! ## Witnesses: concrete states and operands that meet the hypotheses of each obligation -/

/-- Two agents wait; the scheduled one's call stands behind the other's. -/
def twoWaiting : State :=
  { busy with
    pending := [.ofClient 1 .openSession, .ofClient 0 (.read [] true), .ofClient 0 .closeSession]
    schedule := [.client 0, .client 2] }

theorem witness_StepRunsTheDecodedInstruction : twoWaiting.lock = none ∧
    twoWaiting.schedule = .client 0 :: [.client 2] ∧
    twoWaiting.pending = [.ofClient 1 .openSession] ++ .ofClient 0 (.read [] true) :: [.ofClient 0 .closeSession] ∧
    callsOf (.client 0) [.ofClient 1 .openSession] = [] ∧
    decode twoWaiting.params.byteOrder (.read [] true) = .ok (.read [] true) := by decide

theorem witness_StepRunsTheDecodedInstruction_idle_turn :
    ({ twoWaiting with schedule := [.client 7] } : State).schedule = .client 7 :: [] ∧
    callsOf (.client 7) twoWaiting.pending = [] := by decide

theorem witness_StepServesALoneCallerInItsOrder :
    (∃ s : State, s.lock = none ∧ s.schedule = [] ∧
      s.pending = .ofClient 3 .openSession :: [.ofClient 3 .closeSession] ∧
      (∀ d ∈ [Call.ofClient 3 .closeSession], d.caller = (Call.ofClient 3 .openSession).caller) ∧
      decode s.params.byteOrder .openSession = .ok .openSession) ∧
    (busy.lock = none ∧ busy.schedule = [] ∧ busy.pending = []) :=
  ⟨⟨{ busy with pending := [.ofClient 3 .openSession, .ofClient 3 .closeSession] }, by decide⟩, by decide⟩

theorem witness_DecodeOfEncodeIsTheInstruction : (Instr.writeNop 0x80000000#32 [1]).WellFormed ∧
    (Instr.writeEnable 0xFFFFFFFD#32 []).WellFormed ∧ (Instr.writeReset 2#32 []).WellFormed ∧
    (Instr.writeEnrst 3#32 []).WellFormed ∧ (Instr.writeReject [] true).WellFormed := by decide

theorem witness_WritesAreClassifiedByTheLowTwoBits :
    wordOf .little ⟨0xFC, 0xFF, 0xFF, 0xFF⟩ &&& 3#32 = 0#32 ∧ wordOf .big ⟨0, 0, 0, 1⟩ &&& 3#32 = 1#32 ∧
    wordOf .little ⟨2, 0, 0, 0x80⟩ &&& 3#32 = 2#32 ∧ wordOf .big ⟨0xDE, 0xAD, 0xBE, 0xEF⟩ &&& 3#32 = 3#32 := by decide

theorem witness_WordAndBytesAreInverse : (0 : Nat) < 8 ∧ (7 : Nat) < 8 := by decide

theorem witness_WrongByteOrderEnableIsSilentlyNop :
    ByteOrder.little ≠ .big ∧ busy.block = .alive ⟨1, 2, 0, 0⟩ := by decide

theorem witness_InitCreatesTheRegisterFile : absent.block = .absent ∧ absent.lock = none := by decide
theorem witness_FailedInitLeavesNoInstance : absent.block = .absent := by decide
theorem witness_ShutdownEndsTheInstance : busy.block = .alive ⟨1, 2, 0, 0⟩ := by decide
theorem witness_OpenAndCloseChangeNothing : bigBusy.block = .alive ⟨1, 2, 0, 0⟩ := by decide
theorem witness_ReadReturnsStatus : (aliveWith 0 0xFFFFFFFF 0 0).block = .alive ⟨0, 0xFFFFFFFF, 0, 0⟩ := by decide
theorem witness_AcceptedWriteRunsTheDatapath : (aliveWith 0 1 0x55 0xFFFFFFFF).block = .alive ⟨0, 1, 0x55, 0xFFFFFFFF⟩ := by
  decide

theorem witness_OperationsArePerformedByLife : absent.life = .absent ∧ busy.life = .alive ∧ dead.life = .dead ∧
    (∀ ok, Instr.shutdown ≠ .init ok) := by decide

theorem witness_LifeChangesOnlyByInitAndShutdown :
    (∃ t, exec (.init true) absent = .next t ∧ t.life ≠ absent.life) ∧
    (∃ t, exec (.init false) absent = .next t ∧ t.life ≠ absent.life) ∧
    (∃ t, exec .shutdown busy = .next t ∧ t.life ≠ busy.life) :=
  ⟨⟨_, rfl, by decide⟩, ⟨_, rfl, by decide⟩, ⟨_, rfl, by decide⟩⟩

theorem witness_ShortReadIsRejected : busy.block = .alive ⟨1, 2, 0, 0⟩ ∧ ([] : List Byte).length < 4 ∧
    ([1, 2, 3] : List Byte).length < 4 := by decide

theorem witness_UnwritableReadIsAnAccessFault : busy.block = .alive ⟨1, 2, 0, 0⟩ ∧
    4 ≤ ([1, 2, 3, 4] : List Byte).length := by decide

theorem witness_ReadChangesNoState : ∃ t, exec (.read [1, 2, 3, 4] false) busy = .next t := ⟨_, rfl⟩

/-- Two callers wait with a READ and an ENABLE that finds the block BUSY. -/
def polling : State :=
  { busy with
    pending := [.ofClient 0 (.read [0, 0, 0, 0] true), .ofClient 1 (.write [1, 0, 0, 0] true)]
    schedule := [.client 1, .client 0] }

theorem witness_ReadsAreIdempotent : polling.block = .alive ⟨1, 2, 0, 0⟩ ∧ polling.lock = none ∧
    (∀ c ∈ polling.pending, ∀ i, decode polling.params.byteOrder c.request = .ok i → i.KeepsStatus 2#32) ∧
    ∃ t, runFor 2 polling = .next t := by
  refine ⟨rfl, rfl, ?_, _, rfl⟩
  intro c hc i hi
  have hc : c = .ofClient 0 (.read [0, 0, 0, 0] true) ∨ c = .ofClient 1 (.write [1, 0, 0, 0] true) := by
    simpa [polling] using hc
  rcases hc with rfl | rfl
  · obtain rfl : Instr.read [0, 0, 0, 0] true = i := Except.ok.inj hi
    exact trivial
  · obtain rfl : Instr.writeEnable 1#32 [] = i := Except.ok.inj hi
    exact rfl

theorem witness_WriteNopOnlyLatchesControl : busy.block = .alive ⟨1, 2, 0, 0⟩ ∧
    0xFFFFFFFC#32 &&& 0x00000003#32 = 0x00000000#32 := by decide
theorem witness_WriteEnableSetsBusy : (aliveWith 0 4 0 0).block = .alive ⟨0, 4, 0, 0⟩ ∧
    0x00000001#32 &&& 0x00000003#32 = 0x00000001#32 := by decide
theorem witness_WriteResetAndEnrstClearAndReady : (aliveWith 0 1 0 7).block = .alive ⟨0, 1, 0, 7⟩ ∧
    0x80000002#32 &&& 0x00000003#32 = 0x00000002#32 ∧ 0xFFFFFFFF#32 &&& 0x00000003#32 = 0x00000003#32 := by decide

theorem witness_RejectedWriteChangesNothing : busy.block = .alive ⟨1, 2, 0, 0⟩ ∧ ([2, 0, 0] : List Byte).length < 4 ∧
    ([] : List Byte).length < 4 := by decide

theorem witness_BytesBeyondFourHaveNoEffect :
    decode .little (.write [2, 0, 0, 0] true) = .ok (.writeReset 2#32 []) ∧
    decode .little (.write [2, 0, 0, 0, 1, 0, 0, 0] true) = .ok (.writeReset 2#32 [1, 0, 0, 0]) := by decide

theorem witness_ReservedBitsReachOnlyControl : busy.block = .alive ⟨1, 2, 0, 0⟩ ∧
    (wordOf .little ⟨1, 0, 0, 0⟩).extractLsb' 0 2 = (wordOf .little ⟨0xFD, 0xFF, 0xFF, 0xFF⟩).extractLsb' 0 2 ∧
    decode busy.params.byteOrder (.write (TransferUnit.toList ⟨1, 0, 0, 0⟩) true) = .ok (.writeEnable 1#32 []) ∧
    decode busy.params.byteOrder (.write (TransferUnit.toList ⟨0xFD, 0xFF, 0xFF, 0xFF⟩) true)
      = .ok (.writeEnable 0xFFFFFFFD#32 []) := by decide

theorem witness_RepeatedWritesAreIdempotent : busy.block = .alive ⟨1, 2, 0, 0⟩ ∧
    decode busy.params.byteOrder (.write (TransferUnit.toList ⟨3, 0, 0, 0⟩) true) = .ok (.writeEnrst 3#32 []) ∧
    (wordOf busy.params.byteOrder ⟨3, 0, 0, 0⟩).getLsbD 1 = true ∧
    ∃ t r1, exec (.writeEnrst 3#32 []) busy = .next t ∧ t.block = .alive r1 :=
  ⟨rfl, by decide, by decide, _, _, rfl, rfl⟩

theorem witness_RepeatedWritesAreIdempotent_enable :
    decode busy.params.byteOrder (.write (TransferUnit.toList ⟨1, 0, 0, 0⟩) true) = .ok (.writeEnable 1#32 []) ∧
    (wordOf busy.params.byteOrder ⟨1, 0, 0, 0⟩).getLsbD 1 = false ∧
    (wordOf busy.params.byteOrder ⟨1, 0, 0, 0⟩).getLsbD 0 = true ∧
    ∃ t r1, exec (.writeEnable 1#32 []) busy = .next t ∧ t.block = .alive r1 :=
  ⟨by decide, by decide, by decide, _, _, rfl, rfl⟩

theorem witness_StateAfterASequenceOfWrites :
    ∃ s : State, s.block = .alive ⟨1, 2, 0, 0⟩ ∧ s.lock = none ∧ s.params.counterModel = .frozen ∧ s.schedule = [] ∧
      s.pending = ([2#32, 1#32] ++ [4#32]).map fun v => .ofClient 0 (writeOperation s.params.byteOrder v []) :=
  ⟨{ busy with pending := ([2#32, 1#32] ++ [4#32]).map fun v => .ofClient 0 (writeOperation .little v []) }, by decide⟩

theorem witness_TransitionTableHolds : (Instr.writeReset 0x80000002#32 []).WellFormed ∧
    busy.block = .alive ⟨1, 2, 0, 0⟩ ∧ (aliveWith 0 4 0 0).block = .alive ⟨0, 4, 0, 0⟩ ∧
    ∀ ok, Instr.writeReset 0x80000002#32 [] ≠ .init ok := by decide

theorem witness_StepKeepsTheInvariant : polling.Inv ∧ ∃ t, step polling = .next t := by
  refine ⟨⟨rfl, ?_⟩, _, rfl⟩
  rintro r ⟨⟩
  refine ⟨.inr rfl, rfl, fun _ => rfl, fun h => ?_, fun _ => rfl⟩
  exact absurd h (by decide)

theorem witness_ReachableRegistersAreSound :
    ∃ t r, runFor 1 { State.beforeInit defaultParams with pending := [.ofSystem (.init true)], schedule := [.system] }
      = .next t ∧ t.block = .alive r :=
  ⟨_, _, rfl, rfl⟩

theorem witness_EverySoundStateIsReached :
    defaultParams.counterModel = .frozen ∧ ((0#32).getLsbD 1 = true → 2#32 = 0x00000001#32) ∧
    (0#32 &&& 3#32 = 1#32 → 2#32 = 0x00000002#32) := by decide

theorem witness_NothingHappensWithoutAnOperation :
    ({ busy with lock := some .system } : State).lock ≠ none ∧ State.reset.grant.1 = none ∧
    ({ busy with schedule := [.system] } : State).grant.1 = none := by decide

theorem witness_BusyEndsOnlyByResetOrShutdown :
    let s := busy.withFetchWord 32 2
    s.lock = none ∧ s.block = .alive ⟨1, 2, 0, 0⟩ ∧
    ∃ t, step s = .next t ∧ ∀ r', t.block = .alive r' → r'.status ≠ 0x00000002#32 := by
  refine ⟨rfl, rfl, _, rfl, ?_⟩
  rintro r' ⟨⟩
  decide

theorem witness_BusyEndsOnlyByResetOrShutdown_shutdown :
    let s : State := { busy with pending := [.ofSystem .shutdown], schedule := [.system] }
    s.lock = none ∧ s.block = .alive ⟨1, 2, 0, 0⟩ ∧
    ∃ t, step s = .next t ∧ ∀ r', t.block = .alive r' → r'.status ≠ 0x00000002#32 := by
  refine ⟨rfl, rfl, _, rfl, ?_⟩
  rintro r' ⟨⟩

theorem witness_ErrorsLeaveNoTrace :
    (∃ t, exec (.writeReject [] true) busy = .next t ∧ Replied busy t (.err .invalidArgument) none) ∧
    (∃ t, exec (.init false) absent = .next t ∧ Replied absent t (.err .outOfMemory) none) :=
  ⟨⟨_, rfl, rfl⟩, ⟨_, rfl, rfl⟩⟩

theorem witness_ErrorKindsHaveTheirCauses :
    (Instr.writeReject [1, 2, 3] true).WellFormed ∧ ∃ t, exec (.writeReject [1, 2, 3] true) busy = .next t :=
  ⟨rfl, _, rfl⟩

theorem witness_TheBlockRemainsUsable : busy.life = .alive ∧ Instr.writeReject [] true ≠ .shutdown ∧
    (∃ t, exec (.writeReject [] true) busy = .next t) ∧ ∀ ok, Instr.closeSession ≠ .init ok :=
  ⟨rfl, by decide, ⟨_, rfl⟩, by decide⟩

theorem witness_TheBlockRemainsUsable_error_and_reset :
    (∃ t, exec (.writeReject [] true) busy = .next t ∧ Replied busy t (.err .invalidArgument) none ∧
      decode t.params.byteOrder (writeRequest t.params.byteOrder 0xDEADBEEF#32 [7])
        = .ok (.writeEnrst 0xDEADBEEF#32 [7])) ∧
    (0xDEADBEEF#32).getLsbD 1 = true :=
  ⟨⟨_, rfl, rfl, by decide⟩, by decide⟩

theorem witness_OneReplyPerOperation : twoWaiting.lock = none ∧
    ∃ c u t, twoWaiting.grant = (some c, u) ∧ step twoWaiting = .next t :=
  ⟨rfl, _, _, _, rfl, rfl⟩

theorem witness_OperationsReachOnlyTheirRegisters :
    ∃ t, exec (.writeNop 4#32 []) busy = .next t ∧ busy.block = .alive ⟨1, 2, 0, 0⟩ ∧
      t.block = .alive ⟨4, 2, 0, 0⟩ ∧ busy.params.counterModel = .frozen ∧
      (RegFile.mk 4 2 0 0).get .control ≠ (RegFile.mk 1 2 0 0).get .control :=
  ⟨_, rfl, by decide⟩

theorem witness_CounterIsZeroAfterInitAndReset :
    (∃ t r', exec (.init true) absent = .next t ∧ t.block = .alive r' ∧ absent.params.counterModel = .frozen) ∧
    (Instr.writeReset 2#32 []).WellFormed ∧
    (∃ t r', exec (.writeReset 2#32 []) (aliveWith 0 2 0 7) = .next t ∧ t.block = .alive r' ∧ r'.counter ≠ 7#32) ∧
    ∃ t r', exec .openSession (aliveWith 0 2 0 7) = .next t ∧ t.block = .alive r' :=
  ⟨⟨_, _, rfl, rfl, rfl⟩, rfl, ⟨_, _, rfl, rfl, by decide⟩, _, _, rfl, rfl⟩

theorem witness_RunsAreSerializable : polling.lock = none ∧ polling.params.counterModel = .frozen ∧
    ∃ t, runFor 2 polling = .next t := ⟨rfl, rfl, _, rfl⟩

theorem witness_EveryInterleavingIsAdmitted : polling.lock = none ∧ polling.params.counterModel = .frozen ∧
    (∀ a, callsOf a polling.pending = callsOf a polling.pending) ∧
    ∃ u, serveAll polling.pending polling = .next u := ⟨rfl, rfl, fun _ => rfl, _, rfl⟩

/-- Two concurrent writers, ENABLE and RESET (program P4), in the order A, B. -/
def writers : State :=
  { State.reset with
    pending := [.ofClient 0 (writeOperation .little 1#32 []), .ofClient 1 (writeOperation .little 2#32 [])]
    schedule := [.client 0, .client 1] }

theorem witness_LastCompletedWriteDictatesStatus :
    let command : Call → Word := fun c => if c.caller = .client 0 then 1#32 else 2#32
    writers.block = .alive ⟨0, 1, 0, 0⟩ ∧ writers.lock = none ∧ writers.pending ≠ [] ∧
    (∀ c ∈ writers.pending,
      c.request = writeRequest writers.params.byteOrder (command c) [] ∧ command c &&& 3#32 ≠ 0#32) ∧
    ∃ t, runFor 2 writers = .next t ∧ t.pending = [] :=
  ⟨rfl, rfl, by decide, by decide, _, rfl, rfl⟩

theorem witness_EveryIssuedOperationTakesEffect : polling.block = .alive ⟨1, 2, 0, 0⟩ ∧ polling.lock = none ∧
    ∀ c ∈ polling.pending, c.caller ≠ .system := by decide

theorem witness_ClientsObserveOnlyStatus :
    SameToClients { polling with block := .alive ⟨1, 2, 0, 0⟩ } { polling with block := .alive ⟨5, 2, 7, 9⟩ } :=
  ⟨rfl, rfl, rfl, rfl, rfl, rfl, rfl⟩

theorem witness_OnlyTheSystemChangesLife :
    decode .big (Call.ofSystem .shutdown).request = .ok .shutdown ∧
    decode .big (Call.ofClient 0 .closeSession).request = .ok .closeSession ∧
    let s : State := { busy with pending := [.ofSystem .shutdown], schedule := [.system] }
    ∃ t, step s = .next t ∧ t.life ≠ s.life :=
  ⟨rfl, rfl, _, rfl, by decide⟩

theorem witness_ErrorsDoNotAffectLaterOperations :
    let c : Call := .ofClient 0 (.write [2, 0, 0] true)
    busy.block = .alive ⟨1, 2, 0, 0⟩ ∧
    ∃ t, serve c busy = .next t ∧ t.replies = ⟨some c.caller, .err .invalidArgument, none⟩ :: busy.replies :=
  ⟨rfl, _, rfl, rfl⟩

end Sys2Proof.Tests
end

section
/-! PROOFS. The statements of 10_state.md: what a client can observe of the block (R22, R156), which operation changes
`life` (R16), and which operation reaches which register (R22). -/

namespace Sys2Proof.Machine

/-! ## What clients observe

`SameToClients` is kept by each operation on the state, then by each shared form of an operation, and so by `exec`,
`serve`, `step` and a run. -/

/-- Two blocks look the same to clients when both are ABSENT, both are DEAD, or both are ALIVE with one `status`. -/
theorem Block.visible_eq_cases {b b' : Block} (h : b.visible = b'.visible) :
    (b = .absent ∧ b' = .absent) ∨ (b = .dead ∧ b' = .dead) ∨
    ∃ r r', b = .alive r ∧ b' = .alive r' ∧ r.status = r'.status := by
  cases b with
  | absent => cases b' <;> simp [Block.visible] at h ⊢
  | alive r => cases b' <;> simp_all [Block.visible]
  | dead => cases b' <;> simp [Block.visible] at h ⊢

@[simp] theorem Block.visible_alive (r : RegFile) : (Block.alive r).visible = (.alive, some r.status) := rfl

/-- Two outcomes alike are two next states that are related, or one refusal given twice: the machine has no fault
(R126, R128). -/
theorem AlikeOutcomes.cases {rel : State → State → Prop} {o o' : Host.Outcome State Fault Refusal}
    (h : AlikeOutcomes rel o o') :
    (∃ s t, o = .next s ∧ o' = .next t ∧ rel s t) ∨ ∃ q, o = .refused q ∧ o' = .refused q := by
  cases o with
  | next s => cases o' with
    | next t => exact .inl ⟨s, t, rfl, rfl, h⟩
    | fault f => exact h.elim
    | refused q => exact h.elim
  | fault f => exact nomatch f
  | refused p => cases o' with
    | next t => exact h.elim
    | fault f => exact h.elim
    | refused q => exact .inr ⟨p, rfl, congrArg _ (Eq.symm h)⟩

section sameToClients
variable {s t : State} {r r' : RegFile}

theorem SameToClients.block_visible (h : SameToClients s t) : s.block.visible = t.block.visible := h.1

theorem SameToClients.lock_eq (h : SameToClients s t) : t.lock = s.lock := by
  obtain ⟨-, -, hl, -⟩ := h
  exact hl

theorem SameToClients.params_eq (h : SameToClients s t) : t.params = s.params := by
  obtain ⟨-, -, -, hp, -⟩ := h
  exact hp

theorem SameToClients.draws_eq (h : SameToClients s t) : t.draws = s.draws := by
  obtain ⟨-, -, -, -, -, -, hd⟩ := h
  exact hd

theorem SameToClients.setBlock {b b' : Block} (h : SameToClients s t) (hb : b.visible = b'.visible) :
    SameToClients (s.setBlock b) (t.setBlock b') := ⟨hb, h.2⟩

theorem SameToClients.setRegs (h : SameToClients s t) (hr : r.status = r'.status) :
    SameToClients (s.setRegs r) (t.setRegs r') := h.setBlock (by simp [hr])

theorem SameToClients.hold (h : SameToClients s t) (hr : r.status = r'.status) :
    SameToClients (s.hold r) (t.hold r') := h.setRegs hr

theorem SameToClients.respond (h : SameToClients s t) (response : Response) (buffer : Option (List Byte)) :
    SameToClients (s.respond response buffer) (t.respond response buffer) := by
  obtain ⟨hb, hr, henv⟩ := h
  exact ⟨hb, by simp [hr, henv.1], henv⟩

theorem SameToClients.acquire (h : SameToClients s t) (a : Agent) : SameToClients (s.acquire a) (t.acquire a) := by
  obtain ⟨hb, hr, -, henv⟩ := h
  exact ⟨hb, hr, rfl, henv⟩

theorem SameToClients.release (h : SameToClients s t) : SameToClients s.release t.release := by
  obtain ⟨hb, hr, -, hp, hq, hs, hd⟩ := h
  exact ⟨hb, hr, rfl, hp, hq, hs, by simp [hd]⟩

theorem SameToClients.idle (h : SameToClients s t) : SameToClients s.idle t.idle := by
  obtain ⟨hb, hr, hl, hp, hq, hs, hd⟩ := h
  obtain ⟨sl, sp, sq, ss, sr, sd, sb⟩ := s.idle_eq
  obtain ⟨tl, tp, tq, ts, tr, td, tb⟩ := t.idle_eq
  refine ⟨?_, by rw [sr, tr, hr], by rw [sl, tl, hl], by rw [sp, tp, hp], by rw [sq, tq, hq], by rw [ss, ts, hs],
    by rw [sd, td, hd]⟩
  rw [sb, tb]
  obtain ⟨h₁, h₂⟩ | ⟨h₁, h₂⟩ | ⟨r, r', h₁, h₂, hst⟩ := Block.visible_eq_cases hb
  · rw [h₁, h₂]
  · rw [h₁, h₂]
  · rw [h₁, h₂]; simp [hst]

/-- The choice of the next caller looks at nothing but the turns, the waiting calls and the free values. -/
theorem SameToClients.nextCaller_eq (h : SameToClients s t) : t.nextCaller = s.nextCaller := by
  obtain ⟨-, -, -, -, hq, hs, hd⟩ := h
  simp [State.nextCaller, hq, hs, hd]

/-- The lock is granted to the same call. -/
theorem SameToClients.grant (h : SameToClients s t) :
    t.grant.1 = s.grant.1 ∧ SameToClients s.grant.2 t.grant.2 := by
  have hn := h.nextCaller_eq
  obtain ⟨hb, hr, hl, hp, hq, hs, hd⟩ := h
  simp only [State.grant, hn, hq, hs]
  cases s.nextCaller with
  | none => exact ⟨rfl, hb, hr, hl, hp, hq, hs, hd⟩
  | some a =>
    dsimp only
    cases takeCall a s.pending with
    | none => exact ⟨rfl, hb, hr, hl, hp, rfl, rfl, hd⟩
    | some p => exact ⟨rfl, hb, hr, hl, hp, rfl, rfl, hd⟩

/-- An operation gated on ALIVE is refused alike, or runs on registers of the same `status`. -/
theorem SameToClients.ifAlive_alike {f g : RegFile → State} (h : SameToClients s t)
    (run : ∀ r r', r.status = r'.status → SameToClients (f r) (g r')) :
    AlikeOutcomes SameToClients (ifAlive s f) (ifAlive t g) := by
  obtain ⟨h₁, h₂⟩ | ⟨h₁, h₂⟩ | ⟨r, r', h₁, h₂, hst⟩ := Block.visible_eq_cases h.block_visible
  · simp [ifAlive, h₁, h₂, AlikeOutcomes]
  · simp [ifAlive, h₁, h₂, AlikeOutcomes]
  · rw [ifAlive_of_alive f h₁, ifAlive_of_alive g h₂]
    exact run r r' hst

/-- An operation that writes no register and answers the same response. -/
theorem SameToClients.hold_respond_alike (h : SameToClients s t) (response : Response) (buffer : Option (List Byte)) :
    AlikeOutcomes SameToClients (ifAlive s fun r => (s.hold r).respond response buffer)
      (ifAlive t fun r => (t.hold r).respond response buffer) :=
  h.ifAlive_alike fun _ _ hst => (h.hold hst).respond response buffer

/-- The datapath's next `status` looks at the command word and at the old `status` alone (R94). -/
theorem SameToClients.acceptWrite_alike (h : SameToClients s t) (v : Word) :
    AlikeOutcomes SameToClients (acceptWrite v s) (acceptWrite v t) :=
  h.ifAlive_alike fun r r' hst =>
    (h.setRegs (by simp only [RegFile.accept, hst])).respond (.okCount 4) none

/-- A READ answers the bytes of `status`, or an error that depends on the buffer, the parameters and the free values
alone. -/
theorem SameToClients.execRead_alike (h : SameToClients s t) (dst : List Byte) (w : Bool) :
    AlikeOutcomes SameToClients (execRead dst w s) (execRead dst w t) := by
  refine h.ifAlive_alike fun r r' hst => ?_
  rw [h.params_eq, h.draws_eq, hst]
  by_cases hl : holdsUnit dst = true
  · cases w
    · simpa [hl, raise] using (h.hold hst).respond _ _
    · simpa [hl] using (h.hold hst).respond _ _
  · simpa [hl, raise] using (h.hold hst).respond _ _

/-- INIT is refused alike, or leaves one and the same block: it looks at no register (R70, R71). -/
theorem SameToClients.execInit_alike (h : SameToClients s t) (ok : Bool) :
    AlikeOutcomes SameToClients (execInit ok s) (execInit ok t) := by
  obtain ⟨h₁, h₂⟩ | ⟨h₁, h₂⟩ | ⟨r, r', h₁, h₂, -⟩ := Block.visible_eq_cases h.block_visible
  · simp only [execInit, h₁, h₂]
    cases ok
    · exact (h.setBlock rfl).respond _ _
    · exact (h.setRegs rfl).respond _ _
  · simp [execInit, h₁, h₂, AlikeOutcomes]
  · simp [execInit, h₁, h₂, AlikeOutcomes]

theorem SameToClients.exec_alike (h : SameToClients s t) (i : Instr) :
    AlikeOutcomes SameToClients (exec i s) (exec i t) := by
  cases i with
  | init ok => exact h.execInit_alike ok
  | shutdown => exact h.ifAlive_alike fun _ _ _ => (h.setBlock rfl).respond .ok none
  | openSession => exact h.hold_respond_alike .ok none
  | closeSession => exact h.hold_respond_alike .ok none
  | read dst w => exact h.execRead_alike dst w
  | writeNop v _ => exact h.acceptWrite_alike v
  | writeEnable v _ => exact h.acceptWrite_alike v
  | writeReset v _ => exact h.acceptWrite_alike v
  | writeEnrst v _ => exact h.acceptWrite_alike v
  | writeReject _ _ => exact h.hold_respond_alike (.err .invalidArgument) none

/-- The lock is released alike. -/
theorem leave_alike {o o' : Host.Outcome State Fault Refusal} (h : AlikeOutcomes SameToClients o o') :
    AlikeOutcomes SameToClients (leave o) (leave o') := by
  obtain ⟨s, t, rfl, rfl, hst⟩ | ⟨q, rfl, rfl⟩ := h.cases
  · exact hst.release
  · exact rfl

theorem SameToClients.serve_alike (h : SameToClients s t) (c : Call) :
    AlikeOutcomes SameToClients (serve c s) (serve c t) := by
  unfold serve
  rw [h.params_eq]
  cases decode s.params.byteOrder c.request with
  | ok i => exact leave_alike ((h.acquire c.caller).exec_alike i)
  | error e => exact rfl

theorem SameToClients.step_alike (h : SameToClients s t) : AlikeOutcomes SameToClients (step s) (step t) := by
  obtain ⟨hcall, hrest⟩ := h.grant
  unfold step
  rw [h.lock_eq]
  cases s.lock with
  | some a => exact h.idle
  | none =>
    rcases hs : s.grant with ⟨c, u⟩
    rcases ht : t.grant with ⟨d, w⟩
    simp only [hs, ht] at hcall hrest
    subst hcall
    cases d with
    | none => exact hrest.idle
    | some c => exact hrest.serve_alike c

end sameToClients

/-- A relation that every step keeps, up to refusal alike, is kept by every run. -/
theorem runFor_alike {rel : State → State → Prop}
    (keep : ∀ s t, rel s t → AlikeOutcomes rel (step s) (step t)) (n : Nat) {s t : State} (start : rel s t) :
    AlikeOutcomes rel (runFor n s) (runFor n t) := by
  induction n generalizing s t with
  | zero => exact start
  | succ k ih =>
    unfold runFor
    obtain ⟨u, w, hs, ht, huw⟩ | ⟨q, hs, ht⟩ := (keep s t start).cases
    · rw [hs, ht]; exact ih huw
    · rw [hs, ht]; exact rfl

/-- Settles O49: every step keeps `SameToClients`, by induction on the number of steps. -/
theorem clientsObserveOnlyStatus : Obligations.ClientsObserveOnlyStatus :=
  fun n _ _ h => runFor_alike (fun _ _ h => h.step_alike) n h

/-! ## The lifecycle state -/

@[simp] theorem Block.life_absent : Block.absent.life = .absent := rfl
@[simp] theorem Block.life_alive (r : RegFile) : (Block.alive r).life = .alive := rfl
@[simp] theorem Block.life_dead : Block.dead.life = .dead := rfl

theorem State.life_eq {s : State} {b : Block} (h : s.block = b) : s.life = b.life := congrArg Block.life h

/-- The registers hold values exactly while the block is ALIVE. -/
theorem State.regs?_isSome_iff (s : State) : s.regs?.isSome ↔ s.life = .alive := by
  unfold State.regs? State.life
  cases s.block <;> simp [Block.regs?]

theorem State.idle_life (s : State) : s.idle.life = s.life := by
  obtain ⟨-, -, -, -, -, -, hb⟩ := s.idle_eq
  rw [State.life_eq hb]
  unfold State.life
  cases s.block <;> rfl

/-- Settles O15: of the ways an instruction changes the block, the two of INIT and that of SHUTDOWN change `life`; a
WRITE and the operations that hold the registers go from ALIVE to ALIVE. -/
theorem lifeChangesOnlyByInitAndShutdown : Obligations.LifeChangesOnlyByInitAndShutdown := by
  refine ⟨fun _ => rfl, State.regs?_isSome_iff, State.idle_life, fun i s t h hne => ?_⟩
  obtain ⟨change, -, -⟩ := exec_next h
  cases change with
  | created instr before after => exact .inl ⟨instr, State.life_eq before, State.life_eq after⟩
  | failed instr before after => exact .inr (.inl ⟨instr, State.life_eq before, State.life_eq after⟩)
  | ended r instr before after => exact .inr (.inr ⟨instr, State.life_eq before, State.life_eq after⟩)
  | accepted r c v rest instr before after =>
    exact absurd ((State.life_eq after).trans (State.life_eq before).symm) hne
  | held r instr before after =>
    exact absurd ((State.life_eq after).trans (State.life_eq before).symm) hne

/-! ## Which operation reaches which register -/

/-- Holding the registers changes none of them, `counter` left aside under a free counter (R95, D4). -/
theorem RegFile.get_hold {s : State} {x : RegName} (h : x = .counter → s.params.counterModel = .frozen)
    (r : RegFile) : RegFile.get { r with counter := s.nextCounter false r.counter } x = r.get x := by
  cases x with
  | control => rfl
  | status => rfl
  | data => rfl
  | counter => exact State.nextCounter_frozen (h rfl) r.counter

/-- Settles O43: between ALIVE blocks an instruction either ran the datapath, which holds `data`, or held the
registers. -/
theorem operationsReachOnlyTheirRegisters : Obligations.OperationsReachOnlyTheirRegisters := by
  intro i s t r r' x h hs ht hx hne
  obtain ⟨change, -, -⟩ := exec_next h
  cases change with
  | created instr before after => simp [hs] at before
  | failed instr before after => simp [hs] at before
  | ended r₀ instr before after => simp [ht] at after
  | accepted r₀ c v rest instr before after =>
    obtain rfl : r = r₀ := by simpa [hs] using before
    obtain rfl : r' = r.accept _ _ v := by simpa [ht] using after
    refine ⟨?_, v, rest, by cases c <;> simp [instr, CommandClass.toInstr]⟩
    rintro rfl
    exact hne rfl
  | held r₀ instr before after =>
    obtain rfl : r = r₀ := by simpa [hs] using before
    obtain rfl : r' = { r with counter := s.nextCounter false r.counter } := by simpa [ht] using after
    exact absurd (RegFile.get_hold hx r) hne

end Sys2Proof.Machine
end

section
/-! PROOFS. The statements of 20_memory.md: operations take effect one at a time, in an order that keeps each caller's
own (R38, R39), the last completed write dictates `status` (R40), and no operation blocks (R45). -/

namespace Sys2Proof

/-! ## Decoding of requests -/

/-- Packing the bytes of a word gives the word back, under either byte order (R51). -/
@[simp] theorem wordOf_bytesOf (o : ByteOrder) (v : Word) : wordOf o (bytesOf o v) = v := by
  apply BitVec.eq_of_getLsbD_eq
  intro i hi
  cases o <;> interval_cases i <;> simp [wordOf, bytesOf]

/-- Every command word is of one of the four classes (R57, R59). -/
theorem exists_classOf (v : Word) : ∃ c, classOf v = some c := ⟨_, classOf_eq v⟩

/-- No request is illegal (R59). -/
theorem decode_ok (o : ByteOrder) (q : Request) : ∃ i, decode o q = .ok i := by
  cases q with
  | write src w =>
    simp only [decode, decodeWrite]
    cases memRead src with
    | none => exact ⟨_, rfl⟩
    | some p =>
      obtain ⟨c, hc⟩ := exists_classOf (wordOf o p.1)
      cases w <;> simp [hc]
  | _ => exact ⟨_, rfl⟩

/-- A WRITE laid out by a client decodes to the accepted WRITE of its command word. -/
theorem decode_writeRequest (o : ByteOrder) (v : Word) (rest : List Byte) :
    ∃ c : CommandClass, decode o (writeRequest o v rest) = .ok (c.toInstr v rest) := by
  obtain ⟨c, hc⟩ := exists_classOf v
  exact ⟨c, by simp [writeRequest_eq, decode, decodeWrite, hc]⟩

/-- A client's request is neither INIT nor SHUTDOWN (R135). -/
theorem ClientRequest.decode_ne {o : ByteOrder} {q : ClientRequest} {i : Instr}
    (h : decode o q.toRequest = .ok i) : (∀ ok, i ≠ .init ok) ∧ i ≠ .shutdown := by
  constructor
  · rintro ok rfl
    have := decode_eq_init_iff.mp h
    cases q <;> simp [ClientRequest.toRequest] at this
  · rintro rfl
    have := decode_eq_shutdown_iff.mp h
    cases q <;> simp [ClientRequest.toRequest] at this

end Sys2Proof

namespace Sys2Proof.Machine

/-! ## Blocks that agree but for a free counter -/

theorem RegistersHeld.refl (m : CounterModel) (r : RegFile) : RegistersHeld m r r := ⟨rfl, rfl, rfl, fun _ => rfl⟩

theorem RegistersHeld.status_eq {m : CounterModel} {r r' : RegFile} (h : RegistersHeld m r r') :
    r'.status = r.status := by
  obtain ⟨-, hs, -⟩ := h
  exact hs

theorem RegistersHeld.symm {m : CounterModel} {r r' : RegFile} (h : RegistersHeld m r r') :
    RegistersHeld m r' r := by
  obtain ⟨hc, hs, hd, hn⟩ := h
  exact ⟨hc.symm, hs.symm, hd.symm, fun hm => (hn hm).symm⟩

theorem RegistersHeld.trans {m : CounterModel} {r₁ r₂ r₃ : RegFile} (h : RegistersHeld m r₁ r₂)
    (h' : RegistersHeld m r₂ r₃) : RegistersHeld m r₁ r₃ := by
  obtain ⟨hc, hs, hd, hn⟩ := h
  obtain ⟨hc', hs', hd', hn'⟩ := h'
  exact ⟨hc'.trans hc, hs'.trans hs, hd'.trans hd, fun hm => (hn' hm).trans (hn hm)⟩

/-- The counter engine keeps counters together that agree under a frozen counter, whatever it draws (R95). -/
theorem counterEngine_held {m : CounterModel} {c c' : Word} (h : m = .frozen → c' = c) (draw draw' : Word)
    (rst : Bool) (hm : m = .frozen) : counterEngine m draw' rst c' = counterEngine m draw rst c := by
  subst hm
  cases rst <;> simp [h]

/-- Operations that write no register keep the registers together. -/
theorem RegistersHeld.hold {m : CounterModel} {r r' : RegFile} (h : RegistersHeld m r r') (draw draw' : Word) :
    RegistersHeld m { r with counter := counterEngine m draw false r.counter }
      { r' with counter := counterEngine m draw' false r'.counter } := by
  obtain ⟨hc, hs, hd, hn⟩ := h
  exact ⟨hc, hs, hd, counterEngine_held hn draw draw' false⟩

/-- So does the datapath of an accepted WRITE. -/
theorem RegistersHeld.accept {m : CounterModel} {r r' : RegFile} (h : RegistersHeld m r r') (draw draw' v : Word) :
    RegistersHeld m (r.accept m draw v) (r'.accept m draw' v) := by
  obtain ⟨-, hs, hd, hn⟩ := h
  exact ⟨rfl, by simp only [RegFile.accept, hs], hd, counterEngine_held hn draw draw' _⟩

theorem SameBlock.cases {m : CounterModel} {b b' : Block} (h : SameBlock m b b') :
    (b = .absent ∧ b' = .absent) ∨ (b = .dead ∧ b' = .dead) ∨
    ∃ r r', b = .alive r ∧ b' = .alive r' ∧ RegistersHeld m r r' := by
  cases b <;> cases b' <;> simp_all [SameBlock]

theorem SameBlock.alive {m : CounterModel} {r : RegFile} {b b' : Block} (h : SameBlock m b b')
    (hb : b = .alive r) : ∃ r', b' = .alive r' ∧ RegistersHeld m r r' := by
  subst hb
  obtain ⟨h₁, -⟩ | ⟨h₁, -⟩ | ⟨r, r', ⟨⟩, rfl, hr⟩ := h.cases
  · exact nomatch h₁
  · exact nomatch h₁
  · exact ⟨r', rfl, hr⟩

theorem SameBlock.refl (m : CounterModel) (b : Block) : SameBlock m b b := by
  cases b with
  | alive r => exact RegistersHeld.refl m r
  | absent => trivial
  | dead => trivial

theorem SameBlock.symm {m : CounterModel} {b b' : Block} (h : SameBlock m b b') : SameBlock m b' b := by
  obtain ⟨rfl, rfl⟩ | ⟨rfl, rfl⟩ | ⟨r, r', rfl, rfl, hr⟩ := h.cases
  · exact h
  · exact h
  · exact hr.symm

theorem SameBlock.trans {m : CounterModel} {b₁ b₂ b₃ : Block} (h : SameBlock m b₁ b₂) (h' : SameBlock m b₂ b₃) :
    SameBlock m b₁ b₃ := by
  obtain ⟨rfl, rfl⟩ | ⟨rfl, rfl⟩ | ⟨r₁, r₂, rfl, rfl, h₁₂⟩ := h.cases
  · exact h'
  · exact h'
  · cases b₃ with
    | alive r₃ => exact h₁₂.trans h'
    | absent => exact h'
    | dead => exact h'

/-- Under a frozen counter nothing is left aside. -/
theorem SameBlock.eq_of_frozen {b b' : Block} (h : SameBlock .frozen b b') : b = b' := by
  obtain ⟨rfl, rfl⟩ | ⟨rfl, rfl⟩ | ⟨r, r', rfl, rfl, hc, hs, hd, hn⟩ := h.cases
  · rfl
  · rfl
  · obtain ⟨⟩ := r
    obtain ⟨⟩ := r'
    simp_all [CounterHeld]

/-! ## Machines on which operations have the same effects

The effect of an operation on the block and what it tells its caller depend on the block, the lock and the parameters:
not on the waiting calls, the turns or the replies given, and under a frozen counter not on the free values. -/

/-- Two machines whose blocks, locks and parameters agree, and that told their callers the same since a time when the
replies given had told them `p` and `q`: the earlier replies, in which the machines may differ, reach no operation. -/
structure SameEffects (p q : List (Option Agent × Response)) (s t : State) : Prop where
  block : SameBlock s.params.counterModel s.block t.block
  lock : t.lock = s.lock
  params : t.params = s.params
  told : ∃ given, s.replies.map Reply.told = given ++ p ∧ t.replies.map Reply.told = given ++ q

theorem SameEffects.refl (s : State) : SameEffects [] [] s s :=
  ⟨.refl _ _, rfl, rfl, s.replies.map Reply.told, by simp, by simp⟩

section sameEffects
variable {p q : List (Option Agent × Response)} {s t : State} {r r' : RegFile}

theorem SameEffects.told_eq (h : SameEffects p p s t) : t.replies.map Reply.told = s.replies.map Reply.told := by
  obtain ⟨given, hs, ht⟩ := h.told
  rw [hs, ht]

theorem SameEffects.block_eq_of_frozen (h : SameEffects p q s t) (hm : t.params.counterModel = .frozen) :
    s.block = t.block := by
  have hblock := h.block
  rw [← h.params, hm] at hblock
  exact hblock.eq_of_frozen

theorem SameEffects.setBlock {b b' : Block} (h : SameEffects p q s t) (hb : SameBlock s.params.counterModel b b') :
    SameEffects p q (s.setBlock b) (t.setBlock b') := { h with block := hb }

theorem SameEffects.hold (h : SameEffects p q s t) (hr : RegistersHeld s.params.counterModel r r') :
    SameEffects p q (s.hold r) (t.hold r') := by
  refine h.setBlock ?_
  simp only [State.nextCounter, h.params]
  exact hr.hold _ _

/-- The same response to the same holder of the lock; the bytes of the buffers are not compared. -/
theorem SameEffects.respond (h : SameEffects p q s t) (response : Response) (buffer buffer' : Option (List Byte)) :
    SameEffects p q (s.respond response buffer) (t.respond response buffer') := by
  obtain ⟨given, hs, ht⟩ := h.told
  exact ⟨h.block, h.lock, h.params, (s.lock, response) :: given, by simp [hs, Reply.told],
    by simp [ht, h.lock, Reply.told]⟩

theorem SameEffects.acquire (h : SameEffects p q s t) (a : Agent) : SameEffects p q (s.acquire a) (t.acquire a) :=
  { h with lock := rfl }

theorem SameEffects.release (h : SameEffects p q s t) : SameEffects p q s.release t.release := { h with lock := rfl }

theorem SameEffects.ifAlive_alike {f g : RegFile → State} (h : SameEffects p q s t)
    (run : ∀ r r', RegistersHeld s.params.counterModel r r' → SameEffects p q (f r) (g r')) :
    AlikeOutcomes (SameEffects p q) (ifAlive s f) (ifAlive t g) := by
  obtain ⟨h₁, h₂⟩ | ⟨h₁, h₂⟩ | ⟨r, r', h₁, h₂, hr⟩ := h.block.cases
  · simp [ifAlive, h₁, h₂, AlikeOutcomes]
  · simp [ifAlive, h₁, h₂, AlikeOutcomes]
  · rw [ifAlive_of_alive f h₁, ifAlive_of_alive g h₂]
    exact run r r' hr

theorem SameEffects.hold_respond_alike (h : SameEffects p q s t) (response : Response) :
    AlikeOutcomes (SameEffects p q) (ifAlive s fun r => (s.hold r).respond response none)
      (ifAlive t fun r => (t.hold r).respond response none) :=
  h.ifAlive_alike fun _ _ hr => (h.hold hr).respond response none none

theorem SameEffects.acceptWrite_alike (h : SameEffects p q s t) (v : Word) :
    AlikeOutcomes (SameEffects p q) (acceptWrite v s) (acceptWrite v t) := by
  refine h.ifAlive_alike fun r r' hr => (h.setBlock ?_).respond (.okCount 4) none none
  rw [h.params]
  exact hr.accept _ _ v

/-- A READ's response looks at `status`, the buffer's length and the parameters; the free values reach the buffer
alone (R83). -/
theorem SameEffects.execRead_alike (h : SameEffects p q s t) (dst : List Byte) (w : Bool) :
    AlikeOutcomes (SameEffects p q) (execRead dst w s) (execRead dst w t) := by
  refine h.ifAlive_alike fun r r' hr => ?_
  rw [h.params, hr.status_eq]
  by_cases hl : holdsUnit dst = true
  · cases w
    · simpa [hl, raise] using (h.hold hr).respond _ _ _
    · simpa [hl] using (h.hold hr).respond _ _ _
  · simpa [hl, raise] using (h.hold hr).respond _ _ _

theorem SameEffects.execInit_alike (h : SameEffects p q s t) (ok : Bool) :
    AlikeOutcomes (SameEffects p q) (execInit ok s) (execInit ok t) := by
  obtain ⟨h₁, h₂⟩ | ⟨h₁, h₂⟩ | ⟨r, r', h₁, h₂, -⟩ := h.block.cases
  · simp only [execInit, h₁, h₂]
    cases ok
    · exact (h.setBlock (.refl _ _)).respond _ _ _
    · exact (h.setBlock (.refl _ _)).respond _ _ _
  · simp [execInit, h₁, h₂, AlikeOutcomes]
  · simp [execInit, h₁, h₂, AlikeOutcomes]

theorem SameEffects.exec_alike (h : SameEffects p q s t) (i : Instr) :
    AlikeOutcomes (SameEffects p q) (exec i s) (exec i t) := by
  cases i with
  | init ok => exact h.execInit_alike ok
  | shutdown => exact h.ifAlive_alike fun _ _ _ => (h.setBlock (.refl _ _)).respond .ok none none
  | openSession => exact h.hold_respond_alike .ok
  | closeSession => exact h.hold_respond_alike .ok
  | read dst w => exact h.execRead_alike dst w
  | writeNop v _ => exact h.acceptWrite_alike v
  | writeEnable v _ => exact h.acceptWrite_alike v
  | writeReset v _ => exact h.acceptWrite_alike v
  | writeEnrst v _ => exact h.acceptWrite_alike v
  | writeReject _ _ => exact h.hold_respond_alike (.err .invalidArgument)

/-- A served call has the same effect on both machines. -/
theorem SameEffects.serve_alike (h : SameEffects p q s t) (c : Call) :
    AlikeOutcomes (SameEffects p q) (serve c s) (serve c t) := by
  unfold serve
  rw [h.params]
  cases decode s.params.byteOrder c.request with
  | error e => exact rfl
  | ok i =>
    obtain ⟨u, w, hs, ht, huw⟩ | ⟨x, hs, ht⟩ := ((h.acquire c.caller).exec_alike i).cases
    · simp only [hs, ht]; exact huw.release
    · simp only [hs, ht]; exact rfl

/-- If one machine serves the call, so does the other. -/
theorem SameEffects.serve_next {c : Call} {u : State} (h : SameEffects p q s t) (hu : serve c s = .next u) :
    ∃ w, serve c t = .next w ∧ SameEffects p q u w := by
  obtain ⟨u', w, hs, ht, huw⟩ | ⟨x, hs, -⟩ := (h.serve_alike c).cases
  · obtain rfl : u' = u := by simpa [hs] using hu
    exact ⟨w, ht, huw⟩
  · simp [hs] at hu

/-- The waiting calls and the turns do not matter. -/
theorem SameEffects.setQueue (h : SameEffects p q s t) (turns : List Agent) (waiting : List Call) :
    SameEffects p q s { t with schedule := turns, pending := waiting } := { h with }

theorem SameEffects.symm (h : SameEffects p q s t) : SameEffects q p t s := by
  obtain ⟨given, hs, ht⟩ := h.told
  exact ⟨h.params ▸ h.block.symm, h.lock.symm, h.params.symm, given, ht, hs⟩

end sameEffects

/-! ## Taking a call out of the waiting ones -/

/-- Of the calls `calls`, `c` is taken and `waiting` are left, each agent's own order kept (R39). -/
structure Taken (c : Call) (calls waiting : List Call) : Prop where
  perm : calls.Perm (c :: waiting)
  order : ∀ a, callsOf a calls = callsOf a [c] ++ callsOf a waiting

@[simp] theorem callsOf_nil (a : Agent) : callsOf a [] = [] := rfl

theorem callsOf_append (a : Agent) (calls calls' : List Call) :
    callsOf a (calls ++ calls') = callsOf a calls ++ callsOf a calls' := List.filter_append ..

theorem callsOf_cons (a : Agent) (c : Call) (calls : List Call) :
    callsOf a (c :: calls) = callsOf a [c] ++ callsOf a calls := callsOf_append a [c] calls

@[simp] theorem callsOf_caller_singleton (c : Call) : callsOf c.caller [c] = [c] := by simp [callsOf]

theorem callsOf_eq_nil {a : Agent} {calls : List Call} (h : ∀ d ∈ calls, d.caller ≠ a) : callsOf a calls = [] := by
  simpa [callsOf] using h

theorem mem_of_mem_callsOf {a : Agent} {c : Call} {calls : List Call} (h : c ∈ callsOf a calls) : c ∈ calls :=
  List.mem_of_mem_filter h

/-- If no agent has a call among them, there are no calls. -/
theorem eq_nil_of_callsOf_eq_nil {calls : List Call} (h : ∀ a, callsOf a calls = []) : calls = [] := by
  cases calls with
  | nil => rfl
  | cons c cs => simpa [callsOf_cons c.caller c cs] using h c.caller

/-- The first call of an agent can be taken. -/
theorem Taken.of_first {c : Call} {before after : List Call} (h : ∀ d ∈ before, d.caller ≠ c.caller) :
    Taken c (before ++ c :: after) (before ++ after) := by
  refine ⟨List.perm_middle, fun a => ?_⟩
  rw [callsOf_append, callsOf_cons, callsOf_append]
  by_cases ha : a = c.caller
  · subst ha; simp [callsOf_eq_nil h]
  · simp [callsOf_eq_nil (calls := [c]) (a := a) (by simpa using Ne.symm ha)]

theorem Taken.length_eq {c : Call} {calls waiting : List Call} (h : Taken c calls waiting) :
    calls.length = waiting.length + 1 := by simpa using h.perm.length_eq

theorem Taken.mem_of_mem {c d : Call} {calls waiting : List Call} (h : Taken c calls waiting) (hd : d ∈ waiting) :
    d ∈ calls := h.perm.mem_iff.mpr (.tail _ hd)

theorem Taken.mem {c : Call} {calls waiting : List Call} (h : Taken c calls waiting) : c ∈ calls :=
  h.perm.mem_iff.mpr (.head _)

/-! ## What a step and a served call do to the rest of the state -/

/-- A call that was served left the lock free, and the parameters, the turns and the waiting calls alone, and gave its
caller one reply (R20, R33, R130). -/
theorem serve_next_frame {c : Call} {s t : State} (h : serve c s = .next t) :
    t.lock = none ∧ t.params = s.params ∧ t.pending = s.pending ∧ t.schedule = s.schedule ∧
    ∃ response buffer, t.replies = ⟨some c.caller, response, buffer⟩ :: s.replies := by
  obtain ⟨i, u, -, hx, rfl⟩ := serve_next_iff.mp h
  obtain ⟨-, ⟨-, hp, hq, hs, -⟩, response, buffer, hr⟩ := exec_next hx
  exact ⟨rfl, hp, hq, hs, response, buffer, hr⟩

/-- No call took effect between the two states: they differ in the turns, the free values and a free counter (R117). -/
structure Undisturbed (s t : State) : Prop where
  block : SameBlock s.params.counterModel s.block t.block
  lock : t.lock = s.lock
  params : t.params = s.params
  pending : t.pending = s.pending
  replies : t.replies = s.replies

theorem Undisturbed.refl (s : State) : Undisturbed s s := ⟨.refl _ _, rfl, rfl, rfl, rfl⟩

theorem Undisturbed.trans {s t u : State} (h : Undisturbed s t) (h' : Undisturbed t u) : Undisturbed s u where
  block := h.block.trans (h.params ▸ h'.block)
  lock := h'.lock.trans h.lock
  params := h'.params.trans h.params
  pending := h'.pending.trans h.pending
  replies := h'.replies.trans h.replies

/-- A turn in which no call takes effect. -/
theorem Undisturbed.idle (s : State) (turns : List Agent) : Undisturbed s ({ s with schedule := turns }).idle := by
  obtain ⟨hl, hp, hq, -, hr, -, hb⟩ := State.idle_eq { s with schedule := turns }
  refine ⟨?_, hl, hp, hq, hr⟩
  rw [hb]
  cases s.block with
  | alive r => exact ⟨rfl, rfl, rfl, fun hm => State.nextCounter_frozen hm r.counter⟩
  | absent => trivial
  | dead => trivial

theorem SameEffects.undisturbed {p q : List (Option Agent × Response)} {s t u : State} (h : SameEffects p q s t)
    (htu : Undisturbed t u) : SameEffects p q s u where
  block := h.block.trans (h.params ▸ htu.block)
  lock := htu.lock.trans h.lock
  params := htu.params.trans h.params
  told := htu.replies.symm ▸ h.told

/-- With the lock free, a step is the service of a taken call, or a turn in which no call takes effect. -/
theorem step_of_free {s : State} (hl : s.lock = none) :
    (∃ c waiting, s.nextCaller = some c.caller ∧ Taken c s.pending waiting ∧
      step s = serve c { s with schedule := s.schedule.tail, pending := waiting }) ∨
    ((s.schedule = [] → s.pending = []) ∧ (∀ a, s.nextCaller = some a → ∀ c ∈ s.pending, c.caller ≠ a) ∧
      step s = .next ({ s with schedule := s.schedule.tail }).idle) := by
  obtain ⟨c, before, after, hg, hn, hp, hb⟩ | ⟨hg, hs, hn⟩ := s.grant_cases
  · exact .inl ⟨c, before ++ after, hn, hp ▸ .of_first hb, step_of_granted hl hg⟩
  · exact .inr ⟨hs, hn, step_of_no_grant hl hg⟩

/-- What a step from a free lock that answers a next state was. -/
theorem step_next_of_free {s t : State} (hl : s.lock = none) (h : step s = .next t) :
    Undisturbed s t ∨ ∃ c waiting, Taken c s.pending waiting ∧
      serve c { s with schedule := s.schedule.tail, pending := waiting } = .next t := by
  obtain ⟨c, waiting, -, htaken, hstep⟩ | ⟨-, -, hstep⟩ := step_of_free hl
  · exact .inr ⟨c, waiting, htaken, hstep ▸ h⟩
  · obtain rfl : State.idle _ = t := by simpa [hstep] using h
    exact .inl (.idle s _)

/-- A run that starts with the lock free ends with it free, and the parameters stand. -/
theorem runFor_frame {n : Nat} {s t : State} (hl : s.lock = none) (h : runFor n s = .next t) :
    t.lock = none ∧ t.params = s.params := by
  refine runFor_induction (P := fun x => x.lock = none ∧ x.params = s.params) ?_ ⟨hl, rfl⟩ h
  rintro x y ⟨hxl, hxp⟩ hstep
  obtain hidle | ⟨c, waiting, -, hserve⟩ := step_next_of_free hxl hstep
  · exact ⟨hidle.lock.trans hxl, hidle.params.trans hxp⟩
  · obtain ⟨hfree, hparams, -⟩ := serve_next_frame hserve
    exact ⟨hfree, hparams.trans hxp⟩

/-! ## Runs are serializations -/

theorem serveAll_cons_next_iff {c : Call} {cs : List Call} {s t : State} :
    serveAll (c :: cs) s = .next t ↔ ∃ u, serve c s = .next u ∧ serveAll cs u = .next t := by
  cases hs : serve c s <;> simp [serveAll, hs]

/-- The calls a run serves, one after another, have the effects of the run, on every machine that starts alike. -/
theorem runFor_serializes {p q : List (Option Agent × Response)} {n : Nat} {s t w : State} (hl : s.lock = none)
    (h : runFor n s = .next t) (hw : SameEffects p q w s) :
    ∃ order u, (∀ a, callsOf a s.pending = callsOf a order ++ callsOf a t.pending) ∧
      serveAll order w = .next u ∧ SameEffects p q u t := by
  induction n generalizing s w with
  | zero =>
    obtain rfl : s = t := by simpa [runFor] using h
    exact ⟨[], w, by simp, rfl, hw⟩
  | succ n ih =>
    obtain ⟨s', hstep, hrun⟩ := runFor_succ_next_iff.mp h
    obtain hidle | ⟨c, waiting, htaken, hserve⟩ := step_next_of_free hl hstep
    · have := ih (hidle.lock.trans hl) hrun (hw.undisturbed hidle)
      rwa [hidle.pending] at this
    · obtain ⟨hfree, -, hq, -⟩ := serve_next_frame hserve
      obtain ⟨w', hserve', hw'⟩ := (hw.setQueue _ _).symm.serve_next hserve
      obtain ⟨order, u, horder, hall, hu⟩ := ih hfree hrun hw'.symm
      refine ⟨c :: order, u, fun a => ?_, serveAll_cons_next_iff.mpr ⟨w', hserve', hall⟩, hu⟩
      rw [htaken.order, callsOf_cons a c order, List.append_assoc, ← horder, hq]

/-- Settles O45: each step serves one call or leaves the block and the replies alone, by induction on the number of
steps. -/
theorem runsAreSerializable : Obligations.RunsAreSerializable := by
  intro n s t hl hfrozen h
  obtain ⟨order, u, horder, hall, hu⟩ := runFor_serializes hl h (.refl s)
  obtain ⟨-, hparams⟩ := runFor_frame hl h
  exact ⟨order, u, horder, hall, hu.block_eq_of_frozen (hparams ▸ hfrozen), hu.told_eq.symm⟩

/-! ## Every order is taken by some run -/

/-- When the turn is the caller of `c`, whose calls begin with `c`, the step serves `c`. -/
theorem step_serves_first {s : State} {c : Call} {turns : List Agent} {order : List Call} (hl : s.lock = none)
    (hturn : s.schedule = c.caller :: turns) (horder : ∀ a, callsOf a (c :: order) = callsOf a s.pending) :
    ∃ waiting, (∀ a, callsOf a order = callsOf a waiting) ∧
      step s = serve c { s with schedule := turns, pending := waiting } := by
  have hnext : s.nextCaller = some c.caller := by simp [State.nextCaller, hturn]
  have hfirst : callsOf c.caller s.pending = c :: callsOf c.caller order := by
    rw [← horder, callsOf_cons c.caller c order]; simp
  obtain ⟨d, waiting, hn, htaken, hstep⟩ | ⟨-, hn, -⟩ := step_of_free hl
  · have hcaller : d.caller = c.caller := by simpa [hnext, eq_comm] using hn
    have htail := htaken.order d.caller
    rw [callsOf_caller_singleton, hcaller, hfirst] at htail
    obtain ⟨rfl, -⟩ := List.cons.inj htail
    refine ⟨waiting, fun a => ?_, by simpa [hturn] using hstep⟩
    have := horder a
    rwa [htaken.order, callsOf_cons a c order, List.append_cancel_left_eq] at this
  · exact absurd rfl (hn _ hnext c (mem_of_mem_callsOf (a := c.caller) (by simp [hfirst])))

/-- The run whose turns are the callers of the calls of `order` has the effects of serving these calls, from every
machine that starts alike with these calls waiting. -/
theorem serveAll_admitted {p q : List (Option Agent × Response)} {order : List Call} {w u s : State}
    (hl : s.lock = none) (hturns : s.schedule = order.map Call.caller)
    (horder : ∀ a, callsOf a order = callsOf a s.pending) (h : serveAll order w = .next u)
    (hw : SameEffects p q w s) :
    ∃ t, runFor order.length s = .next t ∧ t.pending = [] ∧ SameEffects p q u t := by
  induction order generalizing w s with
  | nil =>
    obtain rfl : w = u := by simpa [serveAll] using h
    exact ⟨s, rfl, eq_nil_of_callsOf_eq_nil fun a => (horder a).symm, hw⟩
  | cons c cs ih =>
    obtain ⟨w', hserve, hall⟩ := serveAll_cons_next_iff.mp h
    obtain ⟨waiting, hwaiting, hstep⟩ := step_serves_first hl hturns horder
    obtain ⟨s', hserve', hw'⟩ := (hw.setQueue (cs.map Call.caller) waiting).serve_next hserve
    obtain ⟨hfree, -, hpending, hschedule, -⟩ := serve_next_frame hserve'
    obtain ⟨t, hrun, ht⟩ := ih hfree hschedule (hpending ▸ hwaiting) hall hw'
    exact ⟨t, runFor_succ_next_iff.mpr ⟨s', hstep.trans hserve', hrun⟩, ht⟩

/-- Settles O46: the lock order is the callers of the given order, by induction on that order. -/
theorem everyInterleavingIsAdmitted : Obligations.EveryInterleavingIsAdmitted := by
  intro s u order hl hfrozen horder h
  let start : State := { s with schedule := order.map Call.caller }
  have hstart : SameEffects [] [] s start := (SameEffects.refl s).setQueue _ _
  obtain ⟨t, hrun, hpending, ht⟩ := serveAll_admitted (s := start) hl rfl horder h hstart
  obtain ⟨-, hparams⟩ := runFor_frame (s := start) hl hrun
  exact ⟨_, t, hrun, hpending, (ht.block_eq_of_frozen (hparams ▸ hfrozen)).symm, ht.told_eq⟩

/-! ## The last call a run served -/

/-- After a run, either no call took effect, or one took effect last: the replies are those it left, the block is what
it left, and of its caller's calls those after it are waiting. -/
theorem runFor_last_served {n : Nat} {s t : State} (hl : s.lock = none) (h : runFor n s = .next t) :
    Undisturbed s t ∨ ∃ c w w', w.params = s.params ∧ serve c w = .next w' ∧ t.replies = w'.replies ∧
      SameBlock w'.params.counterModel w'.block t.block ∧
      ∃ before, callsOf c.caller s.pending = before ++ c :: callsOf c.caller t.pending := by
  induction n generalizing s with
  | zero =>
    obtain rfl : s = t := by simpa [runFor] using h
    exact .inl (.refl s)
  | succ n ih =>
    obtain ⟨s', hstep, hrun⟩ := runFor_succ_next_iff.mp h
    obtain hidle | ⟨d, waiting, htaken, hserve⟩ := step_next_of_free hl hstep
    · obtain hrest | ⟨c, w, w', hp, hlast⟩ := ih (hidle.lock.trans hl) hrun
      · exact .inl (hidle.trans hrest)
      · rw [hidle.pending] at hlast
        exact .inr ⟨c, w, w', hp.trans hidle.params, hlast⟩
    · obtain ⟨hfree, hparams, hpending, -⟩ := serve_next_frame hserve
      simp only at hparams hpending
      obtain hrest | ⟨c, w, w', hp, hlast, hr, hb, before, hbefore⟩ := ih hfree hrun
      · refine .inr ⟨d, { s with schedule := _, pending := waiting }, s', rfl, hserve, hrest.replies, hrest.block,
          [], ?_⟩
        rw [htaken.order, hrest.pending, hpending]; simp
      · refine .inr ⟨c, w, w', hp.trans hparams, hlast, hr, hb, callsOf c.caller [d] ++ before, ?_⟩
        rw [htaken.order, List.append_assoc, ← hbefore, hpending]

/-- Every accepted WRITE runs the datapath (R93, R103). -/
theorem exec_toInstr (c : CommandClass) (v : Word) (rest : List Byte) (s : State) :
    exec (c.toInstr v rest) s = acceptWrite v s := by
  cases c <;> rfl

/-- A served WRITE of command word `v` ran the datapath on `v` and answered `Ok(4)`. -/
theorem serve_write_next {c : Call} {s t : State} {v : Word} {rest : List Byte}
    (hc : c.request = writeRequest s.params.byteOrder v rest) (h : serve c s = .next t) :
    ∃ r : RegFile, t.block = .alive (r.accept s.params.counterModel (Config.freeCounter s.draws) v) ∧
      t.replies = ⟨some c.caller, .okCount 4, none⟩ :: s.replies := by
  obtain ⟨i, u, hd, hx, rfl⟩ := serve_next_iff.mp h
  obtain ⟨cls, hcls⟩ := decode_writeRequest s.params.byteOrder v rest
  obtain rfl : cls.toInstr v rest = i := by simpa [hc, hcls] using hd
  rw [exec_toInstr] at hx
  obtain ⟨r, -, rfl⟩ := acceptWrite_next_iff.mp hx
  exact ⟨r, rfl, rfl⟩

/-- A command word with ENABLE or RESET set dictates `status` (R94). -/
theorem RegFile.accept_status {v : Word} (h : v &&& 3#32 ≠ 0#32) (m : CounterModel) (draw : Word) (r : RegFile) :
    (r.accept m draw v).status = if v.getLsbD 1 then READY else BUSY := by
  obtain ⟨hnop, -⟩ := and_three_cases v
  obtain ⟨hrst, hs⟩ | ⟨hrst, -, hs⟩ | ⟨hrst, hen, -⟩ := statusMux_cases (commandOf v) r.status
  · simp_all [RegFile.accept]
  · simp_all [RegFile.accept]
  · exact absurd (hnop.mpr ⟨hrst, hen⟩) h

/-- Settles O47: the last call served is a WRITE that runs the datapath on its word, and what follows it leaves the
replies, `control` and `status` alone. -/
theorem lastCompletedWriteDictatesStatus : Obligations.LastCompletedWriteDictatesStatus := by
  intro n s t r command _ hl hne hwrites h hdone
  obtain hnone | ⟨c, w, w', hp, hserve, hr, hb, before, hlast⟩ := runFor_last_served hl h
  · exact absurd (hnone.pending.symm.trans hdone) hne
  · rw [hdone, callsOf_nil] at hlast
    obtain ⟨hc, hcmd⟩ := hwrites c (mem_of_mem_callsOf (a := c.caller) (by simp [hlast]))
    rw [← hp] at hc
    obtain ⟨r₀, hblock, hreplies⟩ := serve_write_next hc hserve
    obtain ⟨r', ht, hctl, hst, -⟩ := hb.alive hblock
    exact ⟨c, r', by simp [hr, hreplies], by simp [hlast], ht, hctl, hst.trans (RegFile.accept_status hcmd _ _ r₀)⟩

/-! ## Progress -/

/-- In ALIVE every instruction but INIT is performed (R73). -/
theorem exec_of_alive {i : Instr} {s : State} {r : RegFile} (h : s.block = .alive r) (hi : ∀ ok, i ≠ .init ok) :
    ∃ t, exec i s = .next t := by
  cases i with
  | init ok => exact absurd rfl (hi ok)
  | _ => exact ⟨_, ifAlive_of_alive _ h⟩

/-- In ALIVE a client's call is served, and the block stays ALIVE. -/
theorem serve_client_of_alive {c : Call} {s : State} {r : RegFile} (h : s.block = .alive r)
    (hc : c.caller ≠ .system) : ∃ t r', serve c s = .next t ∧ t.block = .alive r' := by
  cases c with
  | ofSystem o => exact absurd rfl hc
  | ofClient n o =>
    obtain ⟨i, hi⟩ := decode_ok s.params.byteOrder o.toRequest
    obtain ⟨hinit, hshut⟩ := ClientRequest.decode_ne hi
    obtain ⟨u, hu⟩ := exec_of_alive (s := s.acquire (.client n)) h hinit
    refine ⟨u.release, ?_⟩
    have hserve : serve (.ofClient n o) s = .next u.release := serve_next_iff.mpr ⟨i, u, hi, hu, rfl⟩
    obtain ⟨change, -, -⟩ := exec_next hu
    cases change with
    | created instr before after => exact absurd instr (hinit _)
    | failed instr before after => exact absurd instr (hinit _)
    | ended r₀ instr before after => exact absurd instr hshut
    | accepted r₀ cls v rest instr before after => exact ⟨_, hserve, after⟩
    | held r₀ instr before after => exact ⟨_, hserve, after⟩

/-- A machine that serves clients: ALIVE, the lock free, and only clients' calls waiting. -/
structure State.Serving (s : State) : Prop where
  alive : ∃ r, s.block = .alive r
  lock : s.lock = none
  clients : ∀ c ∈ s.pending, c.caller ≠ .system

/-- The turns and the waiting calls still to be used up. -/
def State.remaining (s : State) : Nat := s.schedule.length + s.pending.length

/-- Each step uses up a turn or a waiting call, if there are any, and a call leaves the waiting ones with its reply. -/
theorem State.Serving.step {s : State} (h : s.Serving) :
    ∃ t, Machine.step s = .next t ∧ t.Serving ∧ t.remaining ≤ s.remaining - 1 ∧
      t.replies.length + t.pending.length = s.replies.length + s.pending.length := by
  obtain ⟨r, hr⟩ := h.alive
  obtain ⟨c, waiting, -, htaken, hstep⟩ | ⟨hempty, -, hstep⟩ := step_of_free h.lock
  · obtain ⟨t, r', hserve, ht⟩ := serve_client_of_alive
      (s := { s with schedule := s.schedule.tail, pending := waiting }) hr (h.clients c htaken.mem)
    obtain ⟨hfree, -, hpending, hschedule, response, buffer, hreplies⟩ := serve_next_frame hserve
    simp only at hpending hschedule
    have hlength := htaken.length_eq
    refine ⟨t, hstep.trans hserve, ⟨⟨r', ht⟩, hfree, ?_⟩, ?_, ?_⟩
    · exact fun d hd => h.clients d (htaken.mem_of_mem (hpending ▸ hd))
    · simp only [State.remaining, hpending, hschedule, List.length_tail]; omega
    · simp only [hreplies, hpending, List.length_cons]; omega
  · have hidle := Undisturbed.idle s s.schedule.tail
    obtain ⟨-, -, -, hschedule, -⟩ := State.idle_eq { s with schedule := s.schedule.tail }
    obtain ⟨r', hr', -⟩ := hidle.block.alive hr
    refine ⟨_, hstep, ⟨⟨r', hr'⟩, hidle.lock.trans h.lock, ?_⟩, ?_, by rw [hidle.replies, hidle.pending]⟩
    · exact fun d hd => h.clients d (hidle.pending ▸ hd)
    · simp only [State.remaining, hidle.pending, hschedule, List.length_tail]
      cases hturns : s.schedule with
      | nil => simp [hempty hturns]
      | cons a turns => simp only [List.length_cons]; omega

/-- A run of as many steps as remain, or more, serves all. -/
theorem State.Serving.runFor {k : Nat} {s : State} (h : s.Serving) (hk : s.remaining ≤ k) :
    ∃ t, Machine.runFor k s = .next t ∧ t.Serving ∧ t.pending = [] ∧
      t.replies.length = s.replies.length + s.pending.length := by
  induction k generalizing s with
  | zero =>
    have hpending : s.pending = [] := List.length_eq_zero_iff.mp (by unfold State.remaining at hk; omega)
    exact ⟨s, rfl, h, hpending, by simp [hpending]⟩
  | succ k ih =>
    obtain ⟨u, hstep, hu, hless, hcount⟩ := h.step
    obtain ⟨t, hrun, ht, hpending, hreplies⟩ := ih hu (by omega)
    exact ⟨t, runFor_succ_next_iff.mpr ⟨u, hstep, hrun⟩, ht, hpending, hreplies.trans hcount⟩

/-- Settles O48: the turns and waiting calls decrease with every step, by induction on the number of steps. -/
theorem everyIssuedOperationTakesEffect : Obligations.EveryIssuedOperationTakesEffect := by
  intro s r hr hl hclients
  obtain ⟨t, hrun, ⟨⟨r', ht⟩, -, -⟩, hpending, hreplies⟩ :=
    State.Serving.runFor ⟨⟨r, hr⟩, hl, hclients⟩ (Nat.le_refl s.remaining)
  exact ⟨t, hrun, hpending, State.life_eq ht, hreplies⟩

end Sys2Proof.Machine
end

section
/-! PROOFS. The statements of 30_encoding.md: every request is an instruction (R59), an accepted WRITE is classified by
`v[1:0]` (R57), the two byte orders (R51), and what of a source buffer reaches the block (R54, R58, R158). -/

namespace Sys2Proof

/-! ## Byte packing -/

/-- The unit with its bytes in the other order. -/
def TransferUnit.reverse (u : TransferUnit) : TransferUnit := ⟨u.b3, u.b2, u.b1, u.b0⟩

/-- The big-endian word of a unit is the little-endian word of the reversed one (R51). -/
theorem wordOf_big (u : TransferUnit) : wordOf .big u = wordOf .little u.reverse := by
  have reversed (a b c d : Word) : a ||| b ||| c ||| d = d ||| c ||| b ||| a := by ac_rfl
  exact reversed ..

theorem bytesOf_big (v : Word) : bytesOf .big v = (bytesOf .little v).reverse := rfl

/-- Byte `k` of a little-endian unit holds bits `8k` to `8k + 7` of its word (R51). -/
theorem getLsbD_wordOf_little (u : TransferUnit) {j : Nat} (hj : j < 8) :
    (wordOf .little u).getLsbD j = u.b0.getLsbD j ∧ (wordOf .little u).getLsbD (8 + j) = u.b1.getLsbD j ∧
    (wordOf .little u).getLsbD (16 + j) = u.b2.getLsbD j ∧ (wordOf .little u).getLsbD (24 + j) = u.b3.getLsbD j := by
  interval_cases j <;> simp [wordOf]

theorem bytesOf_wordOf_little (u : TransferUnit) : bytesOf .little (wordOf .little u) = u := by
  obtain ⟨b0, b1, b2, b3⟩ := u
  simp only [bytesOf, TransferUnit.mk.injEq]
  refine ⟨?_, ?_, ?_, ?_⟩ <;> refine BitVec.eq_of_getLsbD_eq fun j hj => ?_
  all_goals
    obtain ⟨h0, h1, h2, h3⟩ := getLsbD_wordOf_little ⟨b0, b1, b2, b3⟩ hj
    simp [hj, h0, h1, h2, h3]

/-- Laying out the word of a unit gives the unit back, under either byte order (R51). -/
@[simp] theorem bytesOf_wordOf (o : ByteOrder) (u : TransferUnit) : bytesOf o (wordOf o u) = u := by
  cases o with
  | little => exact bytesOf_wordOf_little u
  | big => rw [wordOf_big, bytesOf_big, bytesOf_wordOf_little]; rfl

/-- Settles O8: the big-endian packing is the little-endian one of the reversed unit. -/
theorem wordAndBytesAreInverse : Obligations.WordAndBytesAreInverse := by
  refine ⟨wordOf_bytesOf, bytesOf_wordOf, fun u j hj => ⟨getLsbD_wordOf_little u hj, ?_⟩⟩
  rw [wordOf_big]
  exact getLsbD_wordOf_little u.reverse hj

/-! ## The classes of a WRITE -/

/-- The value of `v & 3` that selects the class (R57). -/
def CommandClass.lowBits : CommandClass → Word
  | .nop => 0#32
  | .enable => 1#32
  | .reset => 2#32
  | .enrst => 3#32

/-- The class of a command word is the one its low two bits select, and no other (R57). -/
theorem classOf_eq_some_iff (v : Word) (c : CommandClass) : classOf v = some c ↔ v &&& 3#32 = c.lowBits := by
  obtain ⟨h0, h1, h2, h3⟩ := and_three_cases v
  rw [classOf_eq]
  cases c <;> simp only [CommandClass.lowBits, h0, h1, h2, h3]
  all_goals cases v.getLsbD 1 <;> cases v.getLsbD 0 <;> simp

/-- An accepted WRITE is well-formed exactly when it is of the class of its command word. -/
theorem CommandClass.toInstr_wellFormed_iff (c : CommandClass) (v : Word) (rest : List Byte) :
    (c.toInstr v rest).WellFormed ↔ classOf v = some c := by
  rw [classOf_eq_some_iff]
  cases c <;> exact beq_iff_eq

theorem CommandClass.encode_toInstr (o : ByteOrder) (c : CommandClass) (v : Word) (rest : List Byte) :
    encode o (c.toInstr v rest) = writeRequest o v rest := by
  cases c <;> rfl

/-- A readable source that holds a transfer unit is accepted: it decodes to the WRITE of its word, in the word's
class. -/
theorem decode_write_accept {o : ByteOrder} {src rest : List Byte} {u : TransferUnit} {c : CommandClass}
    (hm : memRead src = some (u, rest)) (hc : classOf (wordOf o u) = some c) :
    decode o (.write src true) = .ok (c.toInstr (wordOf o u) rest) := by
  simp [decode, decodeWrite, hm, hc]

/-- A source shorter than four bytes or unreadable is rejected (R101). -/
theorem decode_write_reject (o : ByteOrder) {src : List Byte} {readable : Bool}
    (h : src.length < 4 ∨ readable = false) : decode o (.write src readable) = .ok (.writeReject src readable) := by
  simp only [decode, decodeWrite]
  cases hm : memRead src with
  | none => rfl
  | some p =>
    have hlen : ¬ src.length < 4 := by simp [← memRead_eq_none_iff, hm]
    simp [h.resolve_left hlen]

/-- A source that is not rejected is readable and holds a transfer unit (R90). -/
theorem source_cases (src : List Byte) (readable : Bool) :
    (src.length < 4 ∨ readable = false) ∨ readable = true ∧ ∃ u rest, memRead src = some (u, rest) := by
  cases readable with
  | false => exact .inl (.inr rfl)
  | true =>
    cases hm : memRead src with
    | none => exact .inl (.inl ((memRead_eq_none_iff src).mp hm))
    | some p => exact .inr ⟨rfl, p.1, p.2, rfl⟩

/-- An accepted source decodes to the WRITE of a class exactly when `v & 3` selects the class (R57). -/
theorem lowBits_iff_decode (o : ByteOrder) {src rest : List Byte} {u : TransferUnit}
    (hm : memRead src = some (u, rest)) (c : CommandClass) :
    wordOf o u &&& 3#32 = c.lowBits ↔ decode o (.write src true) = .ok (c.toInstr (wordOf o u) rest) := by
  rw [← classOf_eq_some_iff]
  refine ⟨decode_write_accept hm, fun h => ?_⟩
  obtain ⟨d, hd⟩ := exists_classOf (wordOf o u)
  rw [decode_write_accept hm hd, Except.ok.injEq] at h
  have hwf := (d.toInstr_wellFormed_iff (wordOf o u) rest).mpr hd
  rw [h] at hwf
  exact (c.toInstr_wellFormed_iff (wordOf o u) rest).mp hwf

/-- WRITE.REJECT is the instruction of exactly the sources that fail the input contract (R90, R101). -/
theorem rejected_iff_decode (o : ByteOrder) (src : List Byte) (readable : Bool) :
    (src.length < 4 ∨ readable = false) ↔ decode o (.write src readable) = .ok (.writeReject src readable) := by
  refine ⟨decode_write_reject o, fun h => ?_⟩
  obtain hrej | ⟨rfl, u, rest, hm⟩ := source_cases src readable
  · exact hrej
  · obtain ⟨c, hc⟩ := exists_classOf (wordOf o u)
    rw [decode_write_accept hm hc, Except.ok.injEq] at h
    cases c <;> cases h

/-- Settles O7: one equivalence for the four classes, and one for WRITE.REJECT. -/
theorem writesAreClassifiedByTheLowTwoBits : Obligations.WritesAreClassifiedByTheLowTwoBits := by
  intro o b0 b1 b2 b3 rest
  have accepted := lowBits_iff_decode o (memRead_cons b0 b1 b2 b3 rest)
  exact ⟨accepted .nop, accepted .enable, accepted .reset, accepted .enrst, rejected_iff_decode o⟩

/-- Settles O6: a WRITE is rejected with its buffer, or accepted with its word and the bytes beyond it; the other
requests stand for themselves. -/
theorem everyRequestIsAnInstruction : Obligations.EveryRequestIsAnInstruction := by
  intro o q
  cases q with
  | write src readable =>
    obtain hrej | ⟨rfl, u, rest, hm⟩ := source_cases src readable
    · exact ⟨_, decode_write_reject o hrej, by simpa [Instr.WellFormed, Instr.wf] using hrej, rfl⟩
    · obtain ⟨c, hc⟩ := exists_classOf (wordOf o u)
      refine ⟨_, decode_write_accept hm hc, (c.toInstr_wellFormed_iff _ _).mpr hc, ?_⟩
      rw [c.encode_toInstr, writeRequest_eq, bytesOf_wordOf, ← memRead_eq_some hm]
  | _ => exact ⟨_, rfl, rfl, rfl⟩

end Sys2Proof

namespace Sys2Proof.Machine

/-! ## What of a source buffer reaches the block -/

/-- An accepted source runs the datapath on the word of its first four bytes (R54, R103). -/
theorem exec_of_decode_write {o : ByteOrder} {src rest : List Byte} {u : TransferUnit} {i : Instr}
    (hm : memRead src = some (u, rest)) (h : decode o (.write src true) = .ok i) (s : State) :
    exec i s = acceptWrite (wordOf o u) s := by
  obtain ⟨c, hc⟩ := exists_classOf (wordOf o u)
  rw [decode_write_accept hm hc, Except.ok.injEq] at h
  rw [← h, exec_toInstr]

/-- Settles O28: both WRITEs run the datapath on the same word. -/
theorem bytesBeyondFourHaveNoEffect : Obligations.BytesBeyondFourHaveNoEffect := by
  intro o b0 b1 b2 b3 rest rest' i i' h h' s
  calc exec i s
    _ = acceptWrite (wordOf o ⟨b0, b1, b2, b3⟩) s := exec_of_decode_write (memRead_cons ..) h s
    _ = exec i' s := (exec_of_decode_write (memRead_cons ..) h' s).symm

/-- The command decoder looks at bits 1:0 alone (R93). -/
theorem commandOf_congr {v w : Word} (h : v.extractLsb' 0 2 = w.extractLsb' 0 2) : commandOf v = commandOf w := by
  rw [commandOf, commandOf, getLsbD_zero_eq v, getLsbD_one_eq v, h, ← getLsbD_zero_eq, ← getLsbD_one_eq]

/-- Words of one command lead to registers that differ in `control` alone (R58). -/
theorem RegFile.accept_of_commandOf_eq {v w : Word} (h : commandOf v = commandOf w) (m : CounterModel) (draw : Word)
    (r : RegFile) : r.accept m draw w = { r.accept m draw v with control := w } := by
  simp only [RegFile.accept, h]

/-- Settles O29: both WRITEs run the datapath, on words of one command. -/
theorem reservedBitsReachOnlyControl : Obligations.ReservedBitsReachOnlyControl := by
  intro s r u w i j hr hlow hi hj
  have execI := exec_of_decode_write (memRead_unit u []) hi s
  have execJ := exec_of_decode_write (memRead_unit w []) hj s
  rw [acceptWrite, ifAlive_of_alive _ hr] at execI execJ
  rw [RegFile.accept_of_commandOf_eq (commandOf_congr hlow)] at execJ
  exact ⟨_, _, execI, rfl, execJ⟩

end Sys2Proof.Machine
end

section
/-! PROOFS. The statements of 40_lifecycle.md: which operations are performed in which life (R73), and what INIT,
SHUTDOWN, OPEN and CLOSE do (R70 to R75). -/

namespace Sys2Proof.Machine

/-! ## The life of a block -/

theorem State.life_eq_absent_iff {s : State} : s.life = .absent ↔ s.block = .absent := by
  unfold State.life
  cases s.block <;> simp

theorem State.life_eq_alive_iff {s : State} : s.life = .alive ↔ ∃ r, s.block = .alive r := by
  unfold State.life
  cases s.block <;> simp

theorem State.life_eq_dead_iff {s : State} : s.life = .dead ↔ s.block = .dead := by
  unfold State.life
  cases s.block <;> simp

/-- A DEAD block has no registers (R71, R72). -/
theorem State.regs?_of_dead {s : State} (h : s.block = .dead) : s.regs? = none := congrArg Block.regs? h

/-! ## INIT, and the gate of the other operations -/

theorem exec_init_of_absent {s : State} (h : s.block = .absent) :
    exec (.init true) s = .next ((s.setRegs initialRegs).respond .ok none) := by
  simp [exec, execInit, h]

theorem exec_failed_init_of_absent {s : State} (h : s.block = .absent) :
    exec (.init false) s = .next ((s.setBlock .dead).respond (.err .outOfMemory) none) := by
  simp [exec, execInit, h]

theorem exec_init_of_alive {s : State} {r : RegFile} (h : s.block = .alive r) (ok : Bool) :
    exec (.init ok) s = .refused .alreadyConstructed := by
  simp [exec, execInit, h]

theorem exec_init_of_dead {s : State} (h : s.block = .dead) (ok : Bool) :
    exec (.init ok) s = .refused .instanceDead := by
  simp [exec, execInit, h]

theorem ifAlive_of_absent {s : State} (operation : RegFile → State) (h : s.block = .absent) :
    ifAlive s operation = .refused .instanceAbsent := by
  simp [ifAlive, h]

theorem ifAlive_of_dead {s : State} (operation : RegFile → State) (h : s.block = .dead) :
    ifAlive s operation = .refused .instanceDead := by
  simp [ifAlive, h]

/-- Every instruction but INIT is gated on ALIVE (R73). -/
theorem exec_eq_ifAlive {i : Instr} (hi : ∀ ok, i ≠ .init ok) (s : State) :
    ∃ operation, exec i s = ifAlive s operation := by
  cases i with
  | init ok => exact absurd rfl (hi ok)
  | _ => exact ⟨_, rfl⟩

/-- Settles O14: INIT by its three cases, and every other instruction by its gate on ALIVE. -/
theorem operationsArePerformedByLife : Obligations.OperationsArePerformedByLife := by
  intro s i
  constructor
  · rintro ⟨ok, rfl⟩
    refine ⟨fun h => ?absent, fun h => ?alive, fun h => ?dead⟩
    case absent =>
      have hb := State.life_eq_absent_iff.mp h
      cases ok with
      | true => exact ⟨_, exec_init_of_absent hb⟩
      | false => exact ⟨_, exec_failed_init_of_absent hb⟩
    case alive =>
      obtain ⟨r, hb⟩ := State.life_eq_alive_iff.mp h
      exact exec_init_of_alive hb ok
    case dead => exact exec_init_of_dead (State.life_eq_dead_iff.mp h) ok
  · intro hi
    obtain ⟨operation, gate⟩ := exec_eq_ifAlive hi s
    refine ⟨fun h => ?absent, fun h => ?alive, fun h => ?dead⟩
    case absent => exact gate.trans (ifAlive_of_absent operation (State.life_eq_absent_iff.mp h))
    case alive =>
      obtain ⟨r, hb⟩ := State.life_eq_alive_iff.mp h
      exact exec_of_alive hb hi
    case dead => exact gate.trans (ifAlive_of_dead operation (State.life_eq_dead_iff.mp h))

/-! ## What the lifecycle operations do -/

/-- Settles O10: the values of R21 are `initialRegs`, and the frame is that of every instruction. -/
theorem initCreatesTheRegisterFile : Obligations.InitCreatesTheRegisterFile := by
  intro s h
  have performed := exec_init_of_absent h
  obtain ⟨-, environment, -⟩ := exec_next performed
  exact ⟨_, performed, rfl, rfl, by decide, by decide, by decide, id, rfl, environment⟩

/-- Settles O11: the block left is DEAD, which has no registers. -/
theorem failedInitLeavesNoInstance : Obligations.FailedInitLeavesNoInstance := by
  intro s h
  have performed := exec_failed_init_of_absent h
  obtain ⟨-, environment, -⟩ := exec_next performed
  exact ⟨_, performed, State.life_eq_dead_iff.mpr rfl, State.regs?_of_dead rfl, rfl, environment⟩

theorem exec_shutdown_of_alive {s : State} {r : RegFile} (h : s.block = .alive r) :
    exec .shutdown s = .next ((s.setBlock .dead).respond .ok none) := ifAlive_of_alive _ h

/-- Settles O12: the block left is DEAD, as after a failed INIT. -/
theorem shutdownEndsTheInstance : Obligations.ShutdownEndsTheInstance := by
  intro s r h
  have performed := exec_shutdown_of_alive h
  obtain ⟨-, environment, -⟩ := exec_next performed
  exact ⟨_, performed, State.life_eq_dead_iff.mpr rfl, State.regs?_of_dead rfl, rfl, environment⟩

/-- An operation that writes no register holds the registers (R81, D4). -/
theorem RegistersHeld.of_hold (s : State) (r : RegFile) :
    RegistersHeld s.params.counterModel r { r with counter := s.nextCounter false r.counter } :=
  ⟨rfl, rfl, rfl, fun frozen => State.nextCounter_frozen frozen r.counter⟩

theorem exec_open_or_close_of_alive {s : State} {r : RegFile} {i : Instr}
    (hi : i = .openSession ∨ i = .closeSession) (h : s.block = .alive r) :
    exec i s = .next ((s.hold r).respond .ok none) := by
  obtain rfl | rfl := hi
  · exact ifAlive_of_alive _ h
  · exact ifAlive_of_alive _ h

/-- Settles O13: both hold the registers, whatever `counter` draws when free. -/
theorem openAndCloseChangeNothing : Obligations.OpenAndCloseChangeNothing := by
  intro s r i hi h
  have performed := exec_open_or_close_of_alive hi h
  obtain ⟨-, environment, -⟩ := exec_next performed
  exact ⟨_, _, performed, rfl, .of_hold s r, rfl, environment⟩

end Sys2Proof.Machine
end

section
/-! PROOFS. The statements of 41_read.md: what READ answers in each of its cases (R80, R82, R83), that it changes no
state (R81), and read idempotence over runs (R84). -/

namespace Sys2Proof

/-! ## What a request decodes to, and the command of a WRITE -/

/-- What a request decodes to is an instruction of the opcode table (R57). -/
theorem wellFormed_of_decode {o : ByteOrder} {q : Request} {i : Instr} (h : decode o q = .ok i) : i.WellFormed := by
  obtain ⟨j, hj, hwf, -⟩ := everyRequestIsAnInstruction o q
  obtain rfl : j = i := by simpa [hj] using h
  exact hwf

/-- The command signals of the words of a class (R57, R93). -/
def CommandClass.command : CommandClass → Machine.Command
  | .nop => ⟨false, false⟩
  | .enable => ⟨true, false⟩
  | .reset => ⟨false, true⟩
  | .enrst => ⟨true, true⟩

theorem commandOf_of_classOf {v : Word} {c : CommandClass} (h : classOf v = some c) :
    Machine.commandOf v = c.command := by
  obtain rfl := Option.some.inj ((classOf_eq v).symm.trans h)
  unfold Machine.commandOf
  cases v.getLsbD 1 <;> cases v.getLsbD 0 <;> rfl

end Sys2Proof

namespace Sys2Proof.Machine

/-! ## The cases of READ -/

section read
variable {s : State} {r : RegFile} {dst : List Byte}

theorem exec_read_of_writable (h : s.block = .alive r) (hl : 4 ≤ dst.length) :
    exec (.read dst true) s = .next ((s.hold r).respond (.okRead 4 (bytesOf s.params.byteOrder r.status))
      (some (memWrite dst (bytesOf s.params.byteOrder r.status)))) := by
  simp [exec, execRead, ifAlive_of_alive _ h, hl]

theorem exec_read_of_unwritable (h : s.block = .alive r) (hl : 4 ≤ dst.length) :
    exec (.read dst false) s =
      .next ((s.hold r).respond (.err .accessFault) (some (faultedBuffer s.draws dst.length))) := by
  simp [exec, execRead, raise, ifAlive_of_alive _ h, hl]

theorem exec_read_of_short (h : s.block = .alive r) (hl : dst.length < 4) (writable : Bool) :
    exec (.read dst writable) s = .next ((s.hold r).respond (.err s.params.shortReadError) (some dst)) := by
  simp [exec, execRead, raise, ifAlive_of_alive _ h, holdsUnit, Nat.not_le_of_lt hl]

end read

/-- Settles O16: the registers are held, and the bytes of `status` replace the first four of the buffer. -/
theorem readReturnsStatus : Obligations.ReadReturnsStatus := by
  intro s r b0 b1 b2 b3 rest h
  have performed := exec_read_of_writable (dst := b0 :: b1 :: b2 :: b3 :: rest) h (by simp)
  obtain ⟨-, environment, -⟩ := exec_next performed
  exact ⟨_, _, performed, rfl, rfl, .of_hold s r, environment⟩

/-- Settles O17: the length is tested before `writable` is looked at. -/
theorem shortReadIsRejected : Obligations.ShortReadIsRejected := by
  intro s r dst writable h hl
  have performed := exec_read_of_short h hl writable
  obtain ⟨-, environment, -⟩ := exec_next performed
  exact ⟨_, _, performed, rfl, rfl, .of_hold s r, environment⟩

/-- Settles O18: the buffer afterwards is the free one of the old length. -/
theorem unwritableReadIsAnAccessFault : Obligations.UnwritableReadIsAnAccessFault := by
  intro s r dst h hl
  have performed := exec_read_of_unwritable h hl
  obtain ⟨-, environment, -⟩ := exec_next performed
  exact ⟨_, _, _, performed, rfl, faultedBuffer_length .., rfl, .of_hold s r, environment⟩

/-- Settles O19: each of the three cases in which READ answers holds the registers. -/
theorem readChangesNoState : Obligations.ReadChangesNoState := by
  intro s t dst writable h
  obtain ⟨-, environment, -⟩ := exec_next h
  obtain ⟨r, hr, ⟨-, -, rfl⟩ | ⟨-, -, rfl⟩ | ⟨-, rfl⟩⟩ := execRead_next h
  all_goals exact ⟨r, _, hr, rfl, .of_hold s r, environment⟩

/-! ## Operations that keep `status` -/

/-- A well-formed WRITE that keeps `status` has the status multiplexer select the word that `status` holds (R94). -/
theorem RegFile.accept_status_of_keepsStatus {c : CommandClass} {v : Word} {rest : List Byte} {r : RegFile}
    (hwf : (c.toInstr v rest).WellFormed) (hk : (c.toInstr v rest).KeepsStatus r.status) (m : CounterModel)
    (draw : Word) : (r.accept m draw v).status = r.status := by
  rw [RegFile.accept, commandOf_of_classOf ((c.toInstr_wellFormed_iff v rest).mp hwf)]
  cases c with
  | nop => rfl
  | enable => exact Eq.symm hk
  | reset => exact Eq.symm hk
  | enrst => exact Eq.symm hk

/-- A well-formed instruction that keeps `status` leaves an ALIVE block ALIVE, `status` as it was. -/
theorem exec_status_of_keepsStatus {i : Instr} {s t : State} {r : RegFile} (h : exec i s = .next t)
    (hs : s.block = .alive r) (hwf : i.WellFormed) (hk : i.KeepsStatus r.status) :
    ∃ r', t.block = .alive r' ∧ r'.status = r.status := by
  obtain ⟨change, -, -⟩ := exec_next h
  cases change with
  | created instr before after => simp [hs] at before
  | failed instr before after => simp [hs] at before
  | ended r₀ instr before after => exact (instr ▸ hk : Instr.KeepsStatus r.status .shutdown).elim
  | accepted r₀ c v rest instr before after =>
    obtain rfl : r = r₀ := by simpa [hs] using before
    subst instr
    exact ⟨_, after, RegFile.accept_status_of_keepsStatus hwf hk _ _⟩
  | held r₀ instr before after =>
    obtain rfl : r = r₀ := by simpa [hs] using before
    exact ⟨_, after, rfl⟩

/-- If the reply is a successful READ's, it is `Ok(4)` with the bytes of the given word (R80). -/
def Reply.ReadsOnly (o : ByteOrder) (w : Word) (p : Reply) : Prop :=
  ∀ k u, p.response = .okRead k u → k = 4 ∧ u = bytesOf o w

/-- Only READ answers `Ok` with bytes, and they are those of `status` (R80). -/
theorem exec_reply_readsOnly {i : Instr} {s t : State} {r : RegFile} (h : exec i s = .next t)
    (hs : s.block = .alive r) : ∃ p, t.replies = p :: s.replies ∧ p.ReadsOnly s.params.byteOrder r.status := by
  cases i with
  | init ok => simp [exec_init_of_alive hs] at h
  | read dst w =>
    obtain ⟨r₀, hr₀, ⟨-, -, rfl⟩ | ⟨-, -, rfl⟩ | ⟨-, rfl⟩⟩ := execRead_next h
    · obtain rfl : r = r₀ := by simpa [hs] using hr₀
      exact ⟨_, rfl, by rintro k u ⟨⟩; exact ⟨rfl, rfl⟩⟩
    · exact ⟨_, rfl, nofun⟩
    · exact ⟨_, rfl, nofun⟩
  | _ =>
    obtain ⟨_, -, rfl⟩ := ifAlive_next_iff.mp h
    exact ⟨_, rfl, nofun⟩

/-! ## Runs that keep `status` -/

/-- The invariant of a run from `s` while `status` holds `w`: at `t` the block is ALIVE with that `status`, the waiting
calls keep it, and the READs answered since `s` returned it. -/
structure StatusKept (w : Word) (s t : State) : Prop where
  status : ∃ r, t.block = .alive r ∧ r.status = w
  lock : t.lock = none
  params : t.params = s.params
  keeping : ∀ c ∈ t.pending, ∀ i, decode s.params.byteOrder c.request = .ok i → i.KeepsStatus w
  reads : ∃ given, t.replies = given ++ s.replies ∧ ∀ p ∈ given, p.ReadsOnly s.params.byteOrder w

section statusKept
variable {w : Word} {s t t' : State}

/-- A turn in which no call takes effect changes at most a free counter. -/
theorem StatusKept.undisturbed (h : StatusKept w s t) (hidle : Undisturbed t t') : StatusKept w s t' where
  status := by
    obtain ⟨r, hr, hw⟩ := h.status
    obtain ⟨r', hr', held⟩ := hidle.block.alive hr
    exact ⟨r', hr', held.status_eq.trans hw⟩
  lock := hidle.lock.trans h.lock
  params := hidle.params.trans h.params
  keeping := hidle.pending ▸ h.keeping
  reads := hidle.replies ▸ h.reads

/-- A waiting call keeps `status` when it is served, and if it is a READ it returns it. -/
theorem StatusKept.serve {c : Call} {waiting : List Call} {turns : List Agent} (h : StatusKept w s t)
    (htaken : Taken c t.pending waiting)
    (hserve : Machine.serve c { t with schedule := turns, pending := waiting } = .next t') : StatusKept w s t' := by
  obtain ⟨r, hr, rfl⟩ := h.status
  obtain ⟨given, hgiven, hreads⟩ := h.reads
  obtain ⟨hfree, hparams, (hpending : t'.pending = waiting), -⟩ := serve_next_frame hserve
  obtain ⟨i, u, hdecode, hexec, rfl⟩ := serve_next_iff.mp hserve
  simp only [h.params] at hdecode
  obtain ⟨p, hp, hpr⟩ := exec_reply_readsOnly hexec hr
  refine ⟨?_, hfree, hparams.trans h.params, ?_, p :: given, ?_, ?_⟩
  · exact exec_status_of_keepsStatus (t := u) hexec hr (wellFormed_of_decode hdecode)
      (h.keeping c htaken.mem i hdecode)
  · exact fun d hd => h.keeping d (htaken.mem_of_mem (hpending ▸ hd))
  · exact hp.trans (congrArg (p :: ·) hgiven)
  · exact List.forall_mem_cons.mpr ⟨h.params ▸ hpr, hreads⟩

theorem StatusKept.step (h : StatusKept w s t) (hstep : Machine.step t = .next t') : StatusKept w s t' := by
  obtain hidle | ⟨c, waiting, htaken, hserve⟩ := step_next_of_free h.lock hstep
  · exact h.undisturbed hidle
  · exact h.serve htaken hserve

end statusKept

/-- Settles O20: `StatusKept` holds where the run starts, and every step keeps it. -/
theorem readsAreIdempotent : Obligations.ReadsAreIdempotent := by
  intro n s t r hr hl hkeeping h
  have start : StatusKept r.status s s := ⟨⟨r, hr, rfl⟩, hl, rfl, hkeeping, [], rfl, by simp⟩
  have kept : StatusKept r.status s t := runFor_induction (fun _ _ => StatusKept.step) start h
  obtain ⟨r', ht, hstatus⟩ := kept.status
  obtain ⟨given, hgiven, hreads⟩ := kept.reads
  exact ⟨r', given, ht, hstatus, hgiven, hreads⟩

end Sys2Proof.Machine
end

section
/-! PROOFS. The statements of 42_write.md: the command decoder and the datapath of an accepted WRITE (R91 to R96,
R103), what each of the five forms does (R97 to R102), and repeated and successive WRITEs (R105). -/

namespace Sys2Proof.Machine

/-! ## The command decoder and the effect list -/

/-- A word meets the mask ENABLE exactly when its bit 0 is set (R93). -/
theorem and_ENABLE_ne_zero_iff (v : Word) : v &&& ENABLE ≠ 0#32 ↔ v.getLsbD 0 = true := by
  rw [show ENABLE = BitVec.twoPow 32 0 by decide, BitVec.and_twoPow]
  cases v.getLsbD 0 <;> decide

/-- A word meets the mask RESET exactly when its bit 1 is set (R93). -/
theorem and_RESET_ne_zero_iff (v : Word) : v &&& RESET ≠ 0#32 ↔ v.getLsbD 1 = true := by
  rw [show RESET = BitVec.twoPow 32 1 by decide, BitVec.and_twoPow]
  cases v.getLsbD 1 <;> decide

/-- Settles O27: each mask is one bit, and both bits are among the low two. -/
theorem decoderReadsTwoBitsOnly : Obligations.DecoderReadsTwoBitsOnly := fun v _ =>
  ⟨(and_ENABLE_ne_zero_iff v).symm, (and_RESET_ne_zero_iff v).symm, commandOf_congr⟩

/-- The effect list with its tests on the masks replaced by the command bits (R91, R93). -/
theorem RegFile.effectList_eq (r : RegFile) (v : Word) :
    r.effectList v = ⟨v, statusMux (commandOf v) r.status, r.data, if v.getLsbD 1 then 0#32 else r.counter⟩ := by
  simp only [RegFile.effectList, and_ENABLE_ne_zero_iff, and_RESET_ne_zero_iff, commandOf]
  cases v.getLsbD 1 <;> cases v.getLsbD 0 <;> rfl

/-- Settles O26: a frozen counter engine clears `counter` exactly when the effect list does. -/
theorem datapathEqualsTheEffectList : Obligations.DatapathEqualsTheEffectList := by
  intro r v draw
  rw [RegFile.effectList_eq, RegFile.accept, counterEngine, commandOf_rst]

/-! ## What the datapath gives, by the command bits -/

section accept
variable {v : Word} (m : CounterModel) (draw : Word) (r : RegFile)

/-- With RESET set nothing but `data` remains of the old registers (R94, R95, R105 b). -/
theorem RegFile.accept_of_reset (hrst : v.getLsbD 1 = true) : r.accept m draw v = ⟨v, READY, r.data, 0#32⟩ := by
  rw [RegFile.accept, commandOf, hrst, statusMux_reset, counterEngine_reset]

theorem RegFile.accept_status_of_enable (hrst : v.getLsbD 1 = false) (hen : v.getLsbD 0 = true) :
    (r.accept m draw v).status = BUSY := by
  rw [RegFile.accept, commandOf, hrst, hen, statusMux_enable]

theorem RegFile.accept_status_of_nop (hrst : v.getLsbD 1 = false) (hen : v.getLsbD 0 = false) :
    (r.accept m draw v).status = r.status := by
  rw [RegFile.accept, commandOf, hrst, hen, statusMux_held]

/-- Without RESET a frozen counter is held (R95). -/
theorem RegFile.accept_counterHeld (hrst : v.getLsbD 1 = false) : CounterHeld m r (r.accept m draw v) := by
  rintro rfl
  rw [RegFile.accept, commandOf_rst, hrst, counterEngine_frozen]

theorem statusMux_idempotent (c : Command) (status : Word) :
    statusMux c (statusMux c status) = statusMux c status := by
  obtain ⟨en, rst⟩ := c
  cases rst <;> cases en <;> rfl

/-- At one draw of a free counter, running the datapath twice is running it once (R105 a). -/
theorem RegFile.accept_idempotent (v : Word) : (r.accept m draw v).accept m draw v = r.accept m draw v := by
  have counter (rst : Bool) (x : Word) :
      counterEngine m draw rst (counterEngine m draw rst x) = counterEngine m draw rst x := by
    cases rst <;> cases m <;> rfl
  simp only [RegFile.accept, statusMux_idempotent, counter]

end accept

/-! ## The accepted forms of WRITE -/

/-- In ALIVE an accepted WRITE runs the datapath and answers `Ok(4)` (R91, R102). -/
theorem acceptWrite_of_alive {s : State} {r : RegFile} (h : s.block = .alive r) (v : Word) :
    acceptWrite v s = .next
      ((s.setRegs (r.accept s.params.counterModel (Config.freeCounter s.draws) v)).respond (.okCount 4) none) :=
  ifAlive_of_alive _ h

/-- The same said of the instruction, with its frame: every accepted WRITE does what the datapath does. -/
theorem exec_accepted_of_alive {s : State} {r : RegFile} (h : s.block = .alive r) (c : CommandClass) (v : Word)
    (rest : List Byte) :
    ∃ t, exec (c.toInstr v rest) s = .next t ∧
      t.block = .alive (r.accept s.params.counterModel (Config.freeCounter s.draws) v) ∧
      Replied s t (.okCount 4) none ∧ SameEnvironment s t := by
  have performed := (exec_toInstr c v rest s).trans (acceptWrite_of_alive h v)
  obtain ⟨-, environment, -⟩ := exec_next performed
  exact ⟨_, performed, rfl, rfl, environment⟩

/-- Settles O21: with neither command bit the multiplexer and the counter engine hold. -/
theorem writeNopOnlyLatchesControl : Obligations.WriteNopOnlyLatchesControl := by
  intro s r v rest h hv
  obtain ⟨nop, -⟩ := and_three_cases v
  obtain ⟨hrst, hen⟩ := nop.mp hv
  obtain ⟨t, performed, block, replied, environment⟩ := exec_accepted_of_alive h .nop v rest
  exact ⟨t, _, performed, block, rfl, RegFile.accept_status_of_nop _ _ r hrst hen, rfl,
    RegFile.accept_counterHeld _ _ r hrst, replied, environment⟩

/-- Settles O22: with ENABLE alone the multiplexer selects the whole word BUSY. -/
theorem writeEnableSetsBusy : Obligations.WriteEnableSetsBusy := by
  intro s r v rest h hv
  obtain ⟨-, enable, -⟩ := and_three_cases v
  obtain ⟨hrst, hen⟩ := enable.mp hv
  obtain ⟨t, performed, block, replied, environment⟩ := exec_accepted_of_alive h .enable v rest
  have busy := RegFile.accept_status_of_enable s.params.counterModel (Config.freeCounter s.draws) r hrst hen
  refine ⟨t, _, performed, block, rfl, busy, ?_, ?_, ?_, rfl, RegFile.accept_counterHeld _ _ r hrst, replied,
    environment⟩
  all_goals rw [busy]; decide

/-- Settles O23: RESET set decides every register, whether or not ENABLE is. -/
theorem writeResetAndEnrstClearAndReady : Obligations.WriteResetAndEnrstClearAndReady := by
  intro s r v rest i h hi
  obtain ⟨-, -, reset, enrst⟩ := and_three_cases v
  obtain ⟨c, rfl, hrst⟩ : ∃ c : CommandClass, i = c.toInstr v rest ∧ v.getLsbD 1 = true := by
    obtain ⟨hv, rfl⟩ | ⟨hv, rfl⟩ := hi
    · obtain ⟨hrst, -⟩ := reset.mp hv
      exact ⟨.reset, rfl, hrst⟩
    · obtain ⟨hrst, -⟩ := enrst.mp hv
      exact ⟨.enrst, rfl, hrst⟩
  obtain ⟨t, performed, block, replied, environment⟩ := exec_accepted_of_alive h c v rest
  rw [RegFile.accept_of_reset _ _ r hrst] at block
  exact ⟨t, performed, block, by decide, by decide, by decide, replied, environment⟩

/-- Settles O25: the first four bytes decode to a WRITE of their word, whose command bits select what the datapath
does. -/
theorem acceptedWriteRunsTheDatapath : Obligations.AcceptedWriteRunsTheDatapath := by
  intro s r b0 b1 b2 b3 rest h
  obtain ⟨c, hc⟩ := exists_classOf (wordOf s.params.byteOrder ⟨b0, b1, b2, b3⟩)
  obtain ⟨t, performed, block, replied, environment⟩ := exec_accepted_of_alive h c _ rest
  refine ⟨_, t, _, decode_write_accept (memRead_cons b0 b1 b2 b3 rest) hc, performed, block,
    ⟨rfl, fun hrst => ?_, fun hrst => ⟨?_, ?_, ?_⟩, rfl⟩, replied, environment⟩
  · rw [RegFile.accept_of_reset _ _ r hrst]; exact ⟨rfl, rfl⟩
  · exact RegFile.accept_counterHeld _ _ r hrst
  · exact RegFile.accept_status_of_enable _ _ r hrst
  · exact RegFile.accept_status_of_nop _ _ r hrst

/-- Settles O30: the two WRITEs run the datapath on one word and one draw, so the second is idempotent under either
counter model. -/
theorem repeatedWritesAreIdempotent : Obligations.RepeatedWritesAreIdempotent := by
  intro s t r r1 i u h hdecode hexec hr1
  obtain ⟨-, ⟨-, hparams, -, -, hdraws⟩, -⟩ := exec_next hexec
  have runs := exec_of_decode_write (memRead_unit u []) hdecode
  rw [runs, acceptWrite_of_alive h, Host.Outcome.next.injEq] at hexec
  obtain rfl : r.accept s.params.counterModel (Config.freeCounter s.draws) (wordOf s.params.byteOrder u) = r1 := by
    simpa [← hexec] using hr1
  have again := (runs t).trans (acceptWrite_of_alive hr1 _)
  rw [hparams, hdraws, RegFile.accept_idempotent] at again
  exact ⟨⟨_, _, again, rfl, rfl, rfl, rfl, fun _ => rfl⟩, RegFile.accept_of_reset _ _ r,
    RegFile.accept_status_of_enable _ _ r⟩

/-! ## The rejected form -/

/-- Settles O24: whatever the cause, the operation raises InvalidArgument and holds the registers. -/
theorem rejectedWriteChangesNothing : Obligations.RejectedWriteChangesNothing := by
  intro s r src readable h _
  have performed : exec (.writeReject src readable) s = .next (raise .invalidArgument none s r) := ifAlive_of_alive _ h
  obtain ⟨-, environment, -⟩ := exec_next performed
  exact ⟨_, _, performed, rfl, .of_hold s r, rfl, environment⟩

/-! ## The registers after a sequence of command words -/

theorem RegFile.eq_of_fields {r r' : RegFile} (hcontrol : r.control = r'.control) (hstatus : r.status = r'.status)
    (hdata : r.data = r'.data) (hcounter : r.counter = r'.counter) : r = r' := by
  cases r; cases r'; simp_all only

/-- The effects of command words, one after another (R91, R105 d). -/
def RegFile.afterWrites (r : RegFile) (vs : List Word) : RegFile := vs.foldl (fun r v => r.effectList v) r

theorem RegFile.afterWrites_concat (r : RegFile) (vs : List Word) (v : Word) :
    r.afterWrites (vs ++ [v]) = (r.afterWrites vs).effectList v := List.foldl_concat ..

/-- `control` is the last word (R92, R105 d). -/
theorem RegFile.afterWrites_control (r : RegFile) (vs : List Word) (v : Word) :
    (r.afterWrites (vs ++ [v])).control = v := by
  rw [afterWrites_concat, effectList_eq]

/-- The last word that has a command bit. -/
def lastCommand (vs : List Word) : Option Word := (vs.filter fun v => v &&& 3#32 ≠ 0#32).getLast?

theorem lastCommand_concat (vs : List Word) (v : Word) :
    lastCommand (vs ++ [v]) = if v &&& 3#32 = 0#32 then lastCommand vs else some v := by
  by_cases h : v &&& 3#32 = 0#32 <;> simp [lastCommand, List.filter_append, h]

/-- What a word does to `status`: nothing without a command bit, READY with RESET, else BUSY (R94). -/
theorem statusMux_commandOf (v status : Word) :
    statusMux (commandOf v) status =
      if v &&& 3#32 = 0#32 then status else if v.getLsbD 1 then READY else BUSY := by
  obtain ⟨nop, -⟩ := and_three_cases v
  simp only [nop, commandOf]
  cases v.getLsbD 1 <;> cases v.getLsbD 0 <;> rfl

/-- `status` is decided by the last word with a command bit (R105 d). -/
theorem RegFile.afterWrites_status (r : RegFile) (vs : List Word) :
    (r.afterWrites vs).status = (lastCommand vs).elim r.status fun v => if v.getLsbD 1 then READY else BUSY := by
  induction vs using List.reverseRecOn with
  | nil => rfl
  | append_singleton vs v ih =>
    rw [afterWrites_concat, effectList_eq, lastCommand_concat, statusMux_commandOf, ih]
    split <;> rfl

/-- `counter` is cleared if some word has RESET set (R105 d). -/
theorem RegFile.afterWrites_counter (r : RegFile) (vs : List Word) :
    (r.afterWrites vs).counter = if vs.any (fun v => v.getLsbD 1) then 0#32 else r.counter := by
  induction vs using List.reverseRecOn with
  | nil => rfl
  | append_singleton vs v ih =>
    rw [afterWrites_concat, effectList_eq, ih, List.any_append, List.any_cons, List.any_nil, Bool.or_false]
    cases v.getLsbD 1
    · rw [Bool.or_false]; rfl
    · rw [Bool.or_true]; rfl

theorem RegFile.afterWrites_data (r : RegFile) (vs : List Word) : (r.afterWrites vs).data = r.data := by
  induction vs using List.reverseRecOn with
  | nil => rfl
  | append_singleton vs v ih => rw [afterWrites_concat, effectList_eq, ih]

/-! ## A run of one client's WRITEs -/

/-- Past the end of the schedule, when only calls of one agent wait, the step serves the first of them (log 2). -/
theorem step_serves_lone_caller {s : State} {c : Call} {after : List Call} (hl : s.lock = none)
    (hturns : s.schedule = []) (hpending : s.pending = c :: after) (hlone : ∀ d ∈ after, d.caller = c.caller) :
    step s = serve c { s with schedule := [], pending := after } := by
  obtain ⟨d, before, after', hg, -, hp, hbefore⟩ | ⟨-, hempty, -⟩ := s.grant_cases
  · have same : ∀ e ∈ s.pending, e.caller = c.caller := by simpa [hpending] using hlone
    have hd : d.caller = c.caller := same d (by simp [hp])
    obtain rfl : before = [] := List.eq_nil_iff_forall_not_mem.mpr fun e he =>
      hbefore e he ((same e (by simp [hp, he])).trans hd.symm)
    obtain ⟨rfl, rfl⟩ : c = d ∧ after = after' := by simpa [hpending] using hp
    simpa [hturns] using step_of_granted hl hg
  · simp [hempty hturns] at hpending

/-- A WRITE served in ALIVE runs the datapath on its command word. -/
theorem serve_write_of_alive {c : Call} {s : State} {r : RegFile} {v : Word} {rest : List Byte}
    (h : s.block = .alive r) (hc : c.request = writeRequest s.params.byteOrder v rest) :
    ∃ t, serve c s = .next t ∧
      t.block = .alive (r.accept s.params.counterModel (Config.freeCounter s.draws) v) := by
  obtain ⟨cls, hdecode⟩ := decode_writeRequest s.params.byteOrder v rest
  obtain ⟨u, performed, block, -⟩ := exec_accepted_of_alive (s := s.acquire c.caller) h cls v rest
  exact ⟨u.release, serve_next_iff.mpr ⟨_, u, hc ▸ hdecode, performed, rfl⟩, block⟩

/-- The call by which client `n` writes the word `v`, in four bytes. -/
def writeCall (o : ByteOrder) (n : Nat) (v : Word) : Call := .ofClient n (writeOperation o v [])

/-- An ALIVE machine with the given registers and a frozen counter, on which only WRITEs of the given words wait, all
of one client and with no schedule left. -/
structure State.Writing (s : State) (r : RegFile) (n : Nat) (vs : List Word) : Prop where
  alive : s.block = .alive r
  lock : s.lock = none
  frozen : s.params.counterModel = .frozen
  schedule : s.schedule = []
  pending : s.pending = vs.map (writeCall s.params.byteOrder n)

section writing
variable {s : State} {r : RegFile} {n : Nat} {v : Word} {vs : List Word}

/-- A step takes the first word and has its effect. -/
theorem State.Writing.step (h : s.Writing r n (v :: vs)) :
    ∃ t, Machine.step s = .next t ∧ t.Writing (r.effectList v) n vs := by
  have serves := step_serves_lone_caller h.lock h.schedule h.pending (by simp [writeCall])
  obtain ⟨t, hserve, block⟩ := serve_write_of_alive
    (s := { s with schedule := [], pending := vs.map (writeCall s.params.byteOrder n) })
    (c := writeCall s.params.byteOrder n v) h.alive rfl
  obtain ⟨lock, params, pending, schedule, -⟩ := serve_next_frame hserve
  simp only [h.frozen, datapathEqualsTheEffectList r v] at block
  refine ⟨t, serves.trans hserve, block, lock, ?_, schedule, ?_⟩
  · rw [params]; exact h.frozen
  · rw [params, pending]

/-- The run takes all the words. -/
theorem State.Writing.runFor (h : s.Writing r n vs) :
    ∃ t, Machine.runFor vs.length s = .next t ∧ t.Writing (r.afterWrites vs) n [] := by
  induction vs generalizing s r with
  | nil => exact ⟨s, rfl, h⟩
  | cons v vs ih =>
    obtain ⟨u, hstep, hu⟩ := h.step
    obtain ⟨t, hrun, ht⟩ := ih hu
    exact ⟨t, runFor_succ_next_iff.mpr ⟨u, hstep, hrun⟩, ht⟩

end writing

/-- Settles O31: the run folds the effect list over the words, and the fold has the stated registers, both by
induction on the words. -/
theorem stateAfterASequenceOfWrites : Obligations.StateAfterASequenceOfWrites := by
  intro s r n vs last hr hl hfrozen hturns hpending
  obtain ⟨t, hrun, ht⟩ := State.Writing.runFor ⟨hr, hl, hfrozen, hturns, hpending⟩
  refine ⟨t, by simpa using hrun, ht.pending, ht.alive.trans (congrArg Block.alive ?_)⟩
  refine RegFile.eq_of_fields (r.afterWrites_control vs last) ?status (r.afterWrites_data _) (r.afterWrites_counter _)
  case status =>
    rw [RegFile.afterWrites_status, lastCommand]
    cases ((vs ++ [last]).filter fun v => v &&& 3#32 ≠ 0#32).getLast? <;> rfl

end Sys2Proof.Machine
end

section
/-! PROOFS. The statements of 43_state_machine.md: the transition table (R112), the invariant of the ALIVE states and that
it leaves out no state (R113 to R116), and that no state changes by itself or is terminal (R117, R118). -/

namespace Sys2Proof.Machine

/-! ## The invariant -/

section soundRegs
variable {m : CounterModel} {r r' : RegFile}

theorem SoundRegs.initial (m : CounterModel) : SoundRegs m initialRegs := by
  simp [SoundRegs, initialRegs, READY]

/-- Operations that write no register, and steps without an operation, keep the registers sound. -/
theorem SoundRegs.held (h : SoundRegs m r) (hr : RegistersHeld m r r') : SoundRegs m r' := by
  obtain ⟨hcontrol, hstatus, hdata, hcounter⟩ := hr
  obtain ⟨flags, data, counter, reset, enable⟩ := h
  rw [SoundRegs, hcontrol, hstatus, hdata]
  exact ⟨flags, data, fun frozen => (hcounter frozen).trans (counter frozen), reset, enable⟩

/-- The datapath keeps the registers sound: the bits of `control` that R115 relates to `status` are the command bits that
select `status`. -/
theorem SoundRegs.accept (h : SoundRegs m r) (draw v : Word) : SoundRegs m (r.accept m draw v) := by
  obtain ⟨flags, data, counter, -, -⟩ := h
  obtain ⟨-, enable, -⟩ := and_three_cases v
  refine ⟨?flags, data, fun frozen => ?counter, fun hrst => ?reset, fun hen => ?enable⟩
  case flags =>
    obtain ⟨-, ready⟩ | ⟨-, -, busy⟩ | ⟨-, -, same⟩ := statusMux_cases (commandOf v) r.status
    · exact .inl ready
    · exact .inr busy
    · rwa [RegFile.accept, same]
  case counter =>
    cases hrst : v.getLsbD 1 with
    | true => rw [RegFile.accept_of_reset m draw r hrst]
    | false => exact (RegFile.accept_counterHeld m draw r hrst frozen).trans (counter frozen)
  case reset => exact congrArg RegFile.status (RegFile.accept_of_reset m draw r hrst)
  case enable =>
    obtain ⟨hrst, hen⟩ := enable.mp hen
    exact RegFile.accept_status_of_enable m draw r hrst hen

end soundRegs

/-- Before INIT there are no registers to be sound. -/
theorem State.Inv.of_absent {s : State} (hl : s.lock = none) (hs : s.block = .absent) : s.Inv :=
  ⟨hl, by simp [hs]⟩

/-- Whatever an instruction does to a block whose registers are sound, sound registers come of it. -/
theorem BlockChange.sound {s : State} {i : Instr} {b : Block} (change : BlockChange s i b)
    (h : ∀ r, s.block = .alive r → SoundRegs s.params.counterModel r) :
    ∀ r, b = .alive r → SoundRegs s.params.counterModel r := by
  rintro r rfl
  cases change with
  | created instr before after => cases after; exact .initial _
  | failed instr before after => cases after
  | ended r₀ instr before after => cases after
  | accepted r₀ c v rest instr before after => cases after; exact (h r₀ before).accept _ v
  | held r₀ instr before after => cases after; exact (h r₀ before).held (.of_hold s r₀)

theorem State.Inv.lock_eq_none {s : State} (h : s.Inv) : s.lock = none := h.1

theorem State.Inv.undisturbed {s t : State} (h : s.Inv) (hidle : Undisturbed s t) : t.Inv := by
  obtain ⟨lock, sound⟩ := h
  refine ⟨hidle.lock.trans lock, fun r hr => ?_⟩
  obtain ⟨r₀, hr₀, held⟩ := hidle.block.symm.alive hr
  exact hidle.params ▸ (sound r₀ hr₀).held held.symm

theorem State.Inv.serve {c : Call} {s t : State} (h : s.Inv) (hserve : Machine.serve c s = .next t) : t.Inv := by
  obtain ⟨-, sound⟩ := h
  obtain ⟨lock, params, -⟩ := serve_next_frame hserve
  obtain ⟨i, u, -, hexec, rfl⟩ := serve_next_iff.mp hserve
  obtain ⟨change, -⟩ := exec_next hexec
  exact ⟨lock, params ▸ change.sound sound⟩

/-- Settles O34: a step is a turn without an operation, which holds the registers, or serves one call, which changes the
block in one of the ways of an instruction. -/
theorem stepKeepsTheInvariant : Obligations.StepKeepsTheInvariant := by
  intro s t h hstep
  obtain hidle | ⟨c, waiting, -, hserve⟩ := step_next_of_free h.lock_eq_none hstep
  · exact h.undisturbed hidle
  · have queued : State.Inv { s with schedule := s.schedule.tail, pending := waiting } := h
    exact queued.serve hserve

/-- A `status` of READY or BUSY holds one of the two flags and no other bit (R113). -/
theorem flags_of_ready_or_busy {status : Word} (h : status = READY ∨ status = BUSY) :
    readyFlag status = !busyFlag status ∧ errorFlag status = false ∧ status.extractLsb' 3 29 = 0#29 := by
  obtain rfl | rfl := h
  · decide
  · decide

/-- Settles O35: the invariant holds before INIT, whatever calls wait, and every step keeps it. -/
theorem reachableRegistersAreSound : Obligations.ReachableRegistersAreSound := by
  intro n p calls turns t r hrun hr
  obtain ⟨-, params⟩ := runFor_frame rfl hrun
  obtain ⟨-, sound⟩ : t.Inv := runFor_induction stepKeepsTheInvariant (.of_absent rfl rfl) hrun
  obtain ⟨flags, data, counter, reset, enable⟩ := sound r hr
  obtain ⟨complement, noError, noHighBit⟩ := flags_of_ready_or_busy flags
  exact ⟨flags, complement, noError, noHighBit, data, fun frozen => counter (params ▸ frozen), reset, enable⟩

/-! ## The transition table -/

/-- Settles O32: each line of the table is what the statement about that operation says (R72, R74, R75, R81, R97 to
R101). -/
theorem transitionTableHolds : Obligations.TransitionTableHolds := by
  intro s r i hwf hr hinit
  cases i with
  | init ok => exact absurd rfl (hinit ok)
  | shutdown =>
    obtain ⟨t, performed, life, -⟩ := shutdownEndsTheInstance s r hr
    exact ⟨t, performed, life⟩
  | openSession =>
    obtain ⟨t, r', performed, block, ⟨control, status, -, counter⟩, -⟩ :=
      openAndCloseChangeNothing s r _ (.inl rfl) hr
    exact ⟨t, performed, r', block, status, control, counter⟩
  | closeSession =>
    obtain ⟨t, r', performed, block, ⟨control, status, -, counter⟩, -⟩ :=
      openAndCloseChangeNothing s r _ (.inr rfl) hr
    exact ⟨t, performed, r', block, status, control, counter⟩
  | read dst w =>
    obtain ⟨t, performed⟩ := exec_of_alive hr hinit
    obtain ⟨r₀, r', hr₀, block, ⟨control, status, -, counter⟩, -⟩ := readChangesNoState s t dst w performed
    obtain rfl : r = r₀ := by simpa [hr] using hr₀
    exact ⟨t, performed, r', block, status, control, counter⟩
  | writeNop v rest =>
    obtain ⟨t, r', performed, block, control, status, -, counter, -⟩ :=
      writeNopOnlyLatchesControl s r v rest hr (beq_iff_eq.mp hwf)
    exact ⟨t, performed, r', block, status, control, counter⟩
  | writeEnable v rest =>
    obtain ⟨t, r', performed, block, control, status, -, -, -, -, counter, -⟩ :=
      writeEnableSetsBusy s r v rest hr (beq_iff_eq.mp hwf)
    exact ⟨t, performed, r', block, status, control, counter⟩
  | writeReset v rest =>
    obtain ⟨t, performed, block, -⟩ :=
      writeResetAndEnrstClearAndReady s r v rest _ hr (.inl ⟨beq_iff_eq.mp hwf, rfl⟩)
    exact ⟨t, performed, _, block, rfl, rfl, rfl⟩
  | writeEnrst v rest =>
    obtain ⟨t, performed, block, -⟩ :=
      writeResetAndEnrstClearAndReady s r v rest _ hr (.inr ⟨beq_iff_eq.mp hwf, rfl⟩)
    exact ⟨t, performed, _, block, rfl, rfl, rfl⟩
  | writeReject src readable =>
    obtain ⟨t, r', performed, block, ⟨control, status, -, counter⟩, -⟩ :=
      rejectedWriteChangesNothing s r src readable hr (by simpa [Instr.WellFormed, Instr.wf] using hwf)
    exact ⟨t, performed, r', block, status, control, counter⟩

/-! ## Every sound register file is reached -/

/-- The step that serves the system's INIT before any other call. -/
theorem step_serves_init (p : Params) (calls : List Call) :
    ∃ t, step { State.beforeInit p with pending := .ofSystem (.init true) :: calls, schedule := [.system] } = .next t ∧
      t.block = .alive initialRegs ∧ t.lock = none ∧ t.params = p ∧ t.schedule = [] ∧ t.pending = calls :=
  ⟨_, rfl, rfl, rfl, rfl, rfl, rfl⟩

/-- After INIT `status` is READY, and after one ENABLE it is BUSY. -/
theorem exists_words_to_status {status : Word} (h : status = READY ∨ status = BUSY) :
    ∃ vs, vs.length ≤ 1 ∧ (initialRegs.afterWrites vs).status = status := by
  obtain rfl | rfl := h
  · exact ⟨[], by simp, rfl⟩
  · exact ⟨[ENABLE], by simp, by decide⟩

/-- A `status` that R115 relates to `control` is not moved by writing `control`. -/
theorem statusMux_commandOf_of_related {control status : Word} (reset : control.getLsbD 1 = true → status = READY)
    (enable : control &&& 3#32 = 1#32 → status = BUSY) : statusMux (commandOf control) status = status := by
  obtain ⟨-, one, -⟩ := and_three_cases control
  obtain ⟨hrst, hmux⟩ | ⟨hrst, hen, hmux⟩ | ⟨-, -, hmux⟩ := statusMux_cases (commandOf control) status
  · exact hmux.trans (reset hrst).symm
  · exact hmux.trans (enable (one.mpr ⟨hrst, hen⟩)).symm
  · exact hmux

/-- Settles O36: the last word is the wanted `control`, after an ENABLE if the wanted `status` is BUSY. -/
theorem everySoundStateIsReached : Obligations.EverySoundStateIsReached := by
  intro p n r frozen data counter flags reset enable
  obtain ⟨vs, hlength, hstatus⟩ := exists_words_to_status flags
  obtain ⟨s, hstep, alive, lock, rfl, schedule, pending⟩ :=
    step_serves_init p ((vs ++ [r.control]).map (writeCall p.byteOrder n))
  obtain ⟨t, hrun, written⟩ := State.Writing.runFor ⟨alive, lock, frozen, schedule, pending⟩
  have reached : initialRegs.afterWrites (vs ++ [r.control]) = r := by
    refine RegFile.eq_of_fields (RegFile.afterWrites_control ..) ?status
      ((RegFile.afterWrites_data ..).trans data.symm) ?counter
    case status =>
      rw [RegFile.afterWrites_concat, RegFile.effectList_eq, hstatus]
      exact statusMux_commandOf_of_related reset enable
    case counter =>
      rw [RegFile.afterWrites_counter, counter]
      exact ite_self _
  exact ⟨vs ++ [r.control], t, by simpa using hlength, runFor_succ_next_iff.mpr ⟨s, hstep, hrun⟩,
    reached ▸ written.alive⟩

/-! ## No transition without an operation -/

theorem SameBlock.life_eq {m : CounterModel} {b b' : Block} (h : SameBlock m b b') : b'.life = b.life := by
  obtain ⟨rfl, rfl⟩ | ⟨rfl, rfl⟩ | ⟨r, r', rfl, rfl, -⟩ := h.cases <;> rfl

/-- A step that starts with the lock held, or in which no call is granted, disturbs nothing (log 3, 20). -/
theorem step_undisturbed {s : State} (h : s.lock ≠ none ∨ s.grant.1 = none) :
    ∃ t, step s = .next t ∧ Undisturbed s t := by
  cases hl : s.lock with
  | some a => exact ⟨s.idle, by simp [step, hl], .idle s s.schedule⟩
  | none =>
    obtain ⟨c, before, after, hg, -⟩ | ⟨hg, -⟩ := s.grant_cases
    · simp [hl, hg] at h
    · exact ⟨_, step_of_no_grant hl hg, .idle s s.schedule.tail⟩

/-- Settles O37: such a step changes at most the turns, the free values and a free counter. -/
theorem nothingHappensWithoutAnOperation : Obligations.NothingHappensWithoutAnOperation := by
  intro s h
  obtain ⟨t, hstep, same⟩ := step_undisturbed h
  exact ⟨t, hstep, same.block.life_eq, same.replies, same.params, same.lock, same.pending, fun _ => same.block.alive⟩

/-! ## No terminal state -/

/-- The ways an instruction changes an ALIVE block: SHUTDOWN ends it, an accepted WRITE runs the datapath, and the others
hold the registers. -/
theorem BlockChange.cases_of_alive {s : State} {i : Instr} {b : Block} {r : RegFile} (change : BlockChange s i b)
    (hs : s.block = .alive r) :
    (i = .shutdown ∧ b = .dead) ∨
    (∃ (c : CommandClass) (v : Word) (rest : List Byte), i = c.toInstr v rest ∧
      b = .alive (r.accept s.params.counterModel (Config.freeCounter s.draws) v)) ∨
    (HoldsRegisters i ∧ ∃ r', b = .alive r' ∧ RegistersHeld s.params.counterModel r r') := by
  cases change with
  | created instr before after => simp [hs] at before
  | failed instr before after => simp [hs] at before
  | ended r₀ instr before after => exact .inl ⟨instr, after⟩
  | accepted r₀ c v rest instr before after =>
    obtain rfl : r = r₀ := by simpa [hs] using before
    exact .inr (.inl ⟨c, v, rest, instr, after⟩)
  | held r₀ instr before after =>
    obtain rfl : r = r₀ := by simpa [hs] using before
    exact .inr (.inr ⟨instr, _, after, .of_hold s r⟩)

section usable
variable {s t : State} {r : RegFile} {i : Instr}

/-- Every operation but SHUTDOWN leaves an ALIVE block ALIVE (R118). -/
theorem exec_leaves_alive (hs : s.block = .alive r) (hi : i ≠ .shutdown) (h : exec i s = .next t) :
    ∃ r', t.block = .alive r' := by
  obtain ⟨change, -⟩ := exec_next h
  obtain ⟨hshut, -⟩ | ⟨_, _, _, -, alive⟩ | ⟨-, _, alive, -⟩ := change.cases_of_alive hs
  · exact absurd hshut hi
  · exact ⟨_, alive⟩
  · exact ⟨_, alive⟩

/-- An ALIVE block that answers an error held its registers: an accepted WRITE answers `Ok(4)` and SHUTDOWN `Ok`
(R126). -/
theorem exec_error_holds_registers {kind : ErrorKind} {buffer : Option (List Byte)} (hs : s.block = .alive r)
    (h : exec i s = .next t) (error : Replied s t (.err kind) buffer) :
    ∃ r', t.block = .alive r' ∧ RegistersHeld s.params.counterModel r r' := by
  obtain ⟨change, -⟩ := exec_next h
  obtain ⟨rfl, -⟩ | ⟨c, v, rest, rfl, -⟩ | ⟨-, held⟩ := change.cases_of_alive hs
  · rw [exec_shutdown_of_alive hs, Host.Outcome.next.injEq] at h
    subst h
    simp [Replied] at error
  · rw [exec_toInstr, acceptWrite_of_alive hs, Host.Outcome.next.injEq] at h
    subst h
    simp [Replied] at error
  · exact held

/-- One WRITE of a word with `rst = 1` makes an ALIVE block READY, whatever its registers were (R118). -/
theorem exec_write_reset_makes_ready {o : ByteOrder} {v : Word} {rest : List Byte} {k : Instr}
    (hs : s.block = .alive r) (hrst : v.getLsbD 1 = true) (hdecode : decode o (writeRequest o v rest) = .ok k) :
    ∃ t r', exec k s = .next t ∧ t.block = .alive r' ∧ r'.status = READY := by
  obtain ⟨c, hc⟩ := decode_writeRequest o v rest
  obtain rfl : c.toInstr v rest = k := by simpa [hc] using hdecode
  obtain ⟨t, performed, block, -⟩ := exec_accepted_of_alive hs c v rest
  exact ⟨t, _, performed, block, by rw [RegFile.accept_of_reset _ _ _ hrst]⟩

end usable

/-- Settles O41: the operation leaves the block ALIVE, from where the others are performed, and an error holds the
registers. -/
theorem theBlockRemainsUsable : Obligations.TheBlockRemainsUsable := by
  intro s t i j hlife hi h hj
  obtain ⟨r, hr⟩ := State.life_eq_alive_iff.mp hlife
  obtain ⟨r', hr'⟩ := exec_leaves_alive hr hi h
  refine ⟨State.life_eq hr', exec_of_alive hr' hj, fun v rest k hrst hdecode => ?_, fun kind buffer error => ?_⟩
  · exact exec_write_reset_makes_ready hr' hrst hdecode
  · obtain ⟨r₁, hr₁, held⟩ := exec_error_holds_registers hr h error
    exact ⟨r, r₁, hr, hr₁, held.status_eq⟩

/-! ## What moves the counter -/

/-- The instructions that clear the counter (R114): WRITE.RESET and WRITE.ENRST. -/
def ClearsCounter (i : Instr) : Prop := ∃ v rest, i = .writeReset v rest ∨ i = .writeEnrst v rest

/-- A well-formed accepted WRITE clears the counter exactly when its word has `rst = 1` (R57, R93). -/
theorem clearsCounter_toInstr_iff {c : CommandClass} {v : Word} {rest : List Byte}
    (hwf : (c.toInstr v rest).WellFormed) : ClearsCounter (c.toInstr v rest) ↔ v.getLsbD 1 = true := by
  rw [← commandOf_rst, commandOf_of_classOf ((c.toInstr_wellFormed_iff v rest).mp hwf)]
  cases c <;> simp [ClearsCounter, CommandClass.toInstr, CommandClass.command]

/-- An instruction that holds the registers neither makes the counter nor clears it. -/
theorem HoldsRegisters.not_init_and_not_clearsCounter {i : Instr} (h : HoldsRegisters i) :
    (∀ ok, i ≠ .init ok) ∧ ¬ ClearsCounter i := by
  obtain rfl | rfl | ⟨dst, w, rfl⟩ | ⟨src, w, rfl⟩ := h
  all_goals simp [ClearsCounter]

/-- Settles O44: of the ways to an ALIVE block, INIT makes the counter 0, an accepted WRITE clears it exactly when it is
RESET or ENRST, and the rest hold it. -/
theorem counterIsZeroAfterInitAndReset : Obligations.CounterIsZeroAfterInitAndReset := by
  intro i s t r' hwf h ht
  obtain ⟨change, -⟩ := exec_next h
  rw [ht] at change
  cases change with
  | created instr before after =>
    cases after
    exact ⟨fun _ => rfl, fun _ => .inl ⟨instr, State.life_eq before⟩⟩
  | failed instr before after => cases after
  | ended r instr before after => cases after
  | accepted r c v rest instr before after =>
    cases after
    subst instr
    have clears := clearsCounter_toInstr_iff hwf
    obtain ⟨noInit, -⟩ := c.toInstr_ne v rest
    refine ⟨?_, fun frozen => .inr ⟨r, before, fun moved => clears.mpr ?_⟩⟩
    · rintro (⟨ok, hok⟩ | hclears)
      · exact absurd hok (noInit ok)
      · rw [RegFile.accept_of_reset _ _ _ (clears.mp hclears)]
    · by_contra hrst
      exact moved (RegFile.accept_counterHeld _ _ r (Bool.eq_false_iff.mpr hrst) frozen)
  | held r instr before after =>
    cases after
    obtain ⟨noInit, noClear⟩ := instr.not_init_and_not_clearsCounter
    refine ⟨?_, fun frozen => .inr ⟨r, before, fun moved => absurd (State.nextCounter_frozen frozen _) moved⟩⟩
    rintro (⟨ok, hok⟩ | hclears)
    · exact absurd hok (noInit ok)
    · exact absurd hclears noClear

end Sys2Proof.Machine
end

section
/-! PROOFS. The statements of 60_exceptions.md: what an error is and leaves behind (R121 to R127), that each operation
gives one reply (R130), and that callers are equal but for INIT and SHUTDOWN, which are the system's (R135). -/

namespace Sys2Proof.Machine

/-! ## The causes of the error kinds -/

/-- The error kinds an instruction may report, each with its cause (R121 to R125). -/
inductive ErrorCause (p : Params) : Instr → ErrorKind → Prop where
  | noStorage : ErrorCause p (.init false) .outOfMemory
  | rejectedWrite (src : List Byte) (w : Bool) : ErrorCause p (.writeReject src w) .invalidArgument
  | unwritable (dst : List Byte) (long : 4 ≤ dst.length) : ErrorCause p (.read dst false) .accessFault
  | shortRead (dst : List Byte) (w : Bool) (kind : ErrorKind) (short : dst.length < 4)
      (reported : p.shortReadError = kind) : ErrorCause p (.read dst w) kind

/-- An operation gives one reply, so it reported an error kind only if that was its response. -/
theorem State.respond_error_iff (s : State) (b : Block) (response : Response) (buffer : Option (List Byte))
    (kind : ErrorKind) :
    (∃ buffer', Replied s ((s.setBlock b).respond response buffer) (.err kind) buffer') ↔ response = .err kind := by
  simp [Replied]

section errors
variable {s t : State} {i : Instr} {kind : ErrorKind}

/-- INIT reports an error exactly when storage is lacking (R70, R71). -/
theorem exec_init_error_iff {ok : Bool} (h : exec (.init ok) s = .next t) :
    (∃ b, Replied s t (.err kind) b) ↔ ErrorCause s.params (.init ok) kind := by
  cases hs : s.block with
  | alive r => simp [exec_init_of_alive hs] at h
  | dead => simp [exec_init_of_dead hs] at h
  | absent =>
    cases ok with
    | true =>
      obtain rfl : State.respond _ _ _ = t := by simpa [exec_init_of_absent hs] using h
      exact (State.respond_error_iff s ..).trans ⟨nofun, nofun⟩
    | false =>
      obtain rfl : State.respond _ _ _ = t := by simpa [exec_failed_init_of_absent hs] using h
      refine (State.respond_error_iff s ..).trans ⟨?_, ?_⟩
      · rintro ⟨⟩; exact .noStorage
      · rintro ⟨⟩; rfl

/-- READ reports an error exactly when the buffer is short, or holds a unit and is not writable (R82, R83). -/
theorem exec_read_error_iff {dst : List Byte} {w : Bool} (h : exec (.read dst w) s = .next t) :
    (∃ b, Replied s t (.err kind) b) ↔ ErrorCause s.params (.read dst w) kind := by
  obtain ⟨r, -, ⟨long, rfl, rfl⟩ | ⟨long, rfl, rfl⟩ | ⟨short, rfl⟩⟩ := execRead_next h
  · refine (State.respond_error_iff s ..).trans ⟨?_, ?_⟩
    · exact nofun
    · rintro (_ | _ | _ | ⟨_, _, _, short, _⟩); omega
  · refine (State.respond_error_iff s ..).trans ⟨?_, ?_⟩
    · rintro ⟨⟩; exact .unwritable dst long
    · rintro (_ | _ | _ | ⟨_, _, _, short, _⟩)
      · rfl
      · omega
  · refine (State.respond_error_iff s ..).trans ⟨?_, ?_⟩
    · rintro ⟨⟩; exact .shortRead dst w _ short rfl
    · rintro (_ | _ | ⟨_, long⟩ | ⟨_, _, _, _, reported⟩)
      · omega
      · exact congrArg Response.err reported

/-- An instruction that answers a next state reports an error kind exactly when the kind's cause holds. -/
theorem exec_error_iff (h : exec i s = .next t) :
    (∃ b, Replied s t (.err kind) b) ↔ ErrorCause s.params i kind := by
  cases i with
  | init ok => exact exec_init_error_iff h
  | read dst w => exact exec_read_error_iff h
  | writeReject src w =>
    obtain ⟨r, -, rfl⟩ := ifAlive_next_iff.mp h
    refine (State.respond_error_iff s ..).trans ⟨?_, ?_⟩
    · rintro ⟨⟩; exact .rejectedWrite src w
    · rintro ⟨⟩; rfl
  | _ =>
    obtain ⟨r, -, rfl⟩ := ifAlive_next_iff.mp h
    exact (State.respond_error_iff s ..).trans ⟨nofun, nofun⟩

end errors

/-- Settles O40: an error reply is one of the causes of its kind, and a WRITE.REJECT is short or unreadable by
well-formedness. -/
theorem errorKindsHaveTheirCauses : Obligations.ErrorKindsHaveTheirCauses := by
  intro i s t hwf h
  rw [exec_error_iff h, exec_error_iff h, exec_error_iff h]
  refine ⟨?outOfMemory, ?invalidArgument, ?accessFault⟩
  case outOfMemory =>
    constructor
    · rintro (_ | _ | _ | ⟨dst, w, _, short, reported⟩)
      · exact .inl rfl
      · exact .inr ⟨dst, w, rfl, short, reported⟩
    · rintro (rfl | ⟨dst, w, rfl, short, reported⟩)
      · exact .noStorage
      · exact .shortRead dst w _ short reported
  case invalidArgument =>
    constructor
    · rintro (_ | ⟨src, w⟩ | _ | ⟨dst, w, _, short, reported⟩)
      · exact .inl ⟨src, w, rfl, by simpa [Instr.WellFormed, Instr.wf] using hwf⟩
      · exact .inr ⟨dst, w, rfl, short, reported⟩
    · rintro (⟨src, w, rfl, -⟩ | ⟨dst, w, rfl, short, reported⟩)
      · exact .rejectedWrite src w
      · exact .shortRead dst w _ short reported
  case accessFault =>
    constructor
    · rintro (_ | _ | ⟨dst, long⟩ | ⟨dst, w, _, short, reported⟩)
      · exact .inl ⟨dst, rfl, long⟩
      · exact .inr ⟨dst, w, rfl, short, reported⟩
    · rintro (⟨dst, rfl, long⟩ | ⟨dst, w, rfl, short, reported⟩)
      · exact .unwritable dst long
      · exact .shortRead dst w _ short reported

/-- Settles O39: where there is an error the block was ALIVE and held its registers, or INIT failed. -/
theorem errorsLeaveNoTrace : Obligations.ErrorsLeaveNoTrace := by
  intro i s t kind buffer h error
  obtain ⟨change, environment, -⟩ := exec_next h
  refine ⟨environment, ?_⟩
  have of_alive {r : RegFile} (hr : s.block = .alive r) : ∃ r r', s.block = .alive r ∧ t.block = .alive r' ∧
      RegistersHeld s.params.counterModel r r' ∧ errorFlag r'.status = errorFlag r.status := by
    obtain ⟨r', hr', held⟩ := exec_error_holds_registers hr h error
    exact ⟨r, r', hr, hr', held, congrArg errorFlag held.status_eq⟩
  have cause := (exec_error_iff h).mp ⟨buffer, error⟩
  cases change with
  | created instr before after => subst instr; exact nomatch cause
  | failed instr before after =>
    subst instr
    cases cause
    exact .inl ⟨rfl, rfl, State.life_eq before, State.life_eq after⟩
  | ended r instr before after => exact .inr (of_alive before)
  | accepted r c v rest instr before after => exact .inr (of_alive before)
  | held r instr before after => exact .inr (of_alive before)

/-! ## One reply per operation -/

/-- A grant touches nothing but the turns and the waiting calls (R39). -/
theorem State.grant_frame {s u : State} {c : Option Call} (h : s.grant = (c, u)) :
    u.block = s.block ∧ u.params = s.params ∧ u.replies = s.replies := by
  obtain ⟨d, before, after, hg, -⟩ | ⟨hg, -⟩ := s.grant_cases
  · rw [hg] at h; cases h; exact ⟨rfl, rfl, rfl⟩
  · rw [hg] at h; cases h; exact ⟨rfl, rfl, rfl⟩

/-- Settles O42: the step is the service of the granted call. -/
theorem oneReplyPerOperation : Obligations.OneReplyPerOperation := by
  intro s t u c hl hg hstep
  rw [step_of_granted hl hg] at hstep
  obtain ⟨-, granted_params, granted_replies⟩ := State.grant_frame hg
  obtain ⟨lock, params, pending, schedule, response, buffer, replies⟩ := serve_next_frame hstep
  exact ⟨lock, params.trans granted_params, pending, schedule, response, buffer, granted_replies ▸ replies⟩

/-! ## Equal callers -/

/-- Two runs of one instruction in `s`, by the agents `a` and `b`, left the same block and gave the same response and
buffer, each to its agent. -/
def SameAnswer (s : State) (a b : Agent) (t u : State) : Prop :=
  t.block = u.block ∧ ∃ response buffer, Replied (s.acquire a) t response buffer ∧ Replied (s.acquire b) u response buffer

section sameAnswer
variable {s : State} {a b : Agent}

/-- An operation gated on ALIVE is refused to both agents, or answers both alike. -/
theorem SameAnswer.ifAlive_alike {f g : RegFile → State} (run : ∀ r, SameAnswer s a b (f r) (g r)) :
    AlikeOutcomes (SameAnswer s a b) (ifAlive (s.acquire a) f) (ifAlive (s.acquire b) g) := by
  simp only [Machine.ifAlive, State.acquire_block]
  cases s.block with
  | absent => exact rfl
  | alive r => exact run r
  | dead => exact rfl

theorem SameAnswer.execInit_alike (ok : Bool) :
    AlikeOutcomes (SameAnswer s a b) (execInit ok (s.acquire a)) (execInit ok (s.acquire b)) := by
  simp only [Machine.execInit, State.acquire_block]
  cases s.block with
  | absent => cases ok <;> exact ⟨rfl, _, _, rfl, rfl⟩
  | alive r => exact rfl
  | dead => exact rfl

theorem SameAnswer.execRead_alike (dst : List Byte) (w : Bool) :
    AlikeOutcomes (SameAnswer s a b) (execRead dst w (s.acquire a)) (execRead dst w (s.acquire b)) := by
  refine SameAnswer.ifAlive_alike fun r => ?_
  cases holdsUnit dst with
  | false => exact ⟨rfl, _, _, rfl, rfl⟩
  | true => cases w <;> exact ⟨rfl, _, _, rfl, rfl⟩

/-- An instruction looks at the lock for nothing but the address of its reply (R15). -/
theorem SameAnswer.exec_alike (i : Instr) :
    AlikeOutcomes (SameAnswer s a b) (exec i (s.acquire a)) (exec i (s.acquire b)) := by
  cases i with
  | init ok => exact SameAnswer.execInit_alike ok
  | read dst w => exact SameAnswer.execRead_alike dst w
  | _ => exact SameAnswer.ifAlive_alike fun r => ⟨rfl, _, _, rfl, rfl⟩

end sameAnswer

/-- Settles O50: both calls run the same instruction, each with its client holding the lock. -/
theorem allCallersAreEqual : Obligations.AllCallersAreEqual := by
  intro s m n q
  obtain ⟨i, hi⟩ := decode_ok s.params.byteOrder q.toRequest
  simp only [serve, Call.request_ofClient, Call.caller_ofClient, hi]
  obtain ⟨t, u, ht, hu, same⟩ | ⟨x, ht, hu⟩ :=
    (SameAnswer.exec_alike (s := s) (a := .client m) (b := .client n) i).cases
  · rw [ht, hu]; exact same
  · rw [ht, hu]; exact rfl

/-! ## The system's operations -/

/-- The system's requests are INIT and SHUTDOWN, a client's are neither (R135). -/
theorem caller_eq_system_iff {o : ByteOrder} {c : Call} {i : Instr} (h : decode o c.request = .ok i) :
    c.caller = .system ↔ (∃ ok, i = .init ok) ∨ i = .shutdown := by
  cases c with
  | ofSystem operation =>
    cases operation with
    | init ok => cases h; simp
    | shutdown => cases h; simp
  | ofClient n operation =>
    obtain ⟨noInit, noShutdown⟩ := ClientRequest.decode_ne h
    simp [noInit, noShutdown]

/-- A served call that changes `life` is the system's: only INIT and SHUTDOWN change it (R16). -/
theorem caller_eq_system_of_serve {c : Call} {s t : State} (h : serve c s = .next t) (hlife : t.life ≠ s.life) :
    c.caller = .system := by
  obtain ⟨i, u, hdecode, hexec, rfl⟩ := serve_next_iff.mp h
  obtain ⟨-, -, -, changes⟩ := lifeChangesOnlyByInitAndShutdown
  rw [caller_eq_system_iff hdecode]
  obtain ⟨hi, -⟩ | ⟨hi, -⟩ | ⟨hi, -⟩ := changes i _ u hexec hlife
  · exact .inl ⟨true, hi⟩
  · exact .inl ⟨false, hi⟩
  · exact .inr hi

/-- Settles O51: a step that serves no call leaves `life` alone, and one that changes it served a call of the system. -/
theorem onlyTheSystemChangesLife : Obligations.OnlyTheSystemChangesLife := by
  refine ⟨fun o c i h => caller_eq_system_iff h, fun s t hstep hlife => ?_⟩
  by_cases quiet : s.lock ≠ none ∨ s.grant.1 = none
  · obtain ⟨t', hstep', same⟩ := step_undisturbed quiet
    obtain rfl : t' = t := by simpa [hstep'] using hstep
    exact absurd same.block.life_eq hlife
  · push Not at quiet
    obtain ⟨hl, hgranted⟩ := quiet
    rcases hg : s.grant with ⟨_ | c, u⟩
    · simp [hg] at hgranted
    · obtain ⟨granted_block, -⟩ := State.grant_frame hg
      rw [step_of_granted hl hg] at hstep
      have granted_life : u.life = s.life := State.life_eq granted_block
      exact ⟨hl, c, u, rfl, caller_eq_system_of_serve hstep (granted_life.symm ▸ hlife)⟩

/-! ## Operations after an error -/

/-- A relation that every served call keeps, up to refusal alike, is kept by any calls served one after another. -/
theorem serveAll_alike {rel : State → State → Prop}
    (keep : ∀ c s t, rel s t → AlikeOutcomes rel (serve c s) (serve c t)) (calls : List Call) {s t : State}
    (start : rel s t) : AlikeOutcomes rel (serveAll calls s) (serveAll calls t) := by
  induction calls generalizing s t with
  | nil => exact start
  | cons c cs ih =>
    unfold serveAll
    obtain ⟨u, w, hs, ht, huw⟩ | ⟨q, hs, ht⟩ := (keep c s t start).cases
    · rw [hs, ht]; exact ih huw
    · rw [hs, ht]; exact rfl

/-- Two machines, under the parameters `m`, on which operations have the same effects once an agent has entered: who
held the lock before does not matter. -/
structure SameEffectsWithin (m : Params) (p q : List (Option Agent × Response)) (s t : State) : Prop where
  params : s.params = m
  effects : ∀ a, SameEffects p q (s.acquire a) (t.acquire a)

/-- A call is served from within the lock, so it has the same effects on both machines. -/
theorem SameEffectsWithin.serve_alike {m : Params} {p q : List (Option Agent × Response)} {s t : State}
    (h : SameEffectsWithin m p q s t) (c : Call) : AlikeOutcomes (SameEffectsWithin m p q) (serve c s) (serve c t) := by
  have alike : AlikeOutcomes (SameEffects p q) (serve c s) (serve c t) := (h.effects c.caller).serve_alike c
  obtain ⟨u, w, hs, ht, huw⟩ | ⟨x, hs, ht⟩ := alike.cases
  · obtain ⟨-, params, -⟩ := serve_next_frame hs
    rw [hs, ht]
    exact ⟨params.trans h.params, huw.acquire⟩
  · rw [hs, ht]; exact rfl

/-- An ALIVE block that answers a call with an error is as it was, but for a free counter (R126). -/
theorem serve_error_sameBlock {c : Call} {s t : State} {r : RegFile} {kind : ErrorKind} {buffer : Option (List Byte)}
    (hr : s.block = .alive r) (h : serve c s = .next t)
    (error : t.replies = ⟨some c.caller, .err kind, buffer⟩ :: s.replies) :
    SameBlock s.params.counterModel t.block s.block := by
  obtain ⟨i, u, -, hexec, rfl⟩ := serve_next_iff.mp h
  obtain ⟨r', hr', held⟩ := exec_error_holds_registers (s := s.acquire c.caller) hr hexec error
  rw [State.release_block, hr', hr]
  exact held.symm

/-- Settles O52: the error left the block and the parameters as they were, and of these alone the effects of later
operations depend, by induction on the later calls. -/
theorem errorsDoNotAffectLaterOperations : Obligations.ErrorsDoNotAffectLaterOperations := by
  intro s t r c kind buffer later hr h error
  obtain ⟨-, params, -⟩ := serve_next_frame h
  have same := serve_error_sameBlock hr h error
  have start : SameEffectsWithin s.params (t.replies.map Reply.told) (s.replies.map Reply.told) t s :=
    ⟨params, fun _ => ⟨params.symm ▸ same, rfl, params.symm, [], rfl, rfl⟩⟩
  obtain ⟨u, w, hu, hw, same⟩ | ⟨x, hu, hw⟩ :=
    (serveAll_alike (fun c _ _ h => SameEffectsWithin.serve_alike h c) later start).cases
  · have effects := same.effects .system
    rw [hu, hw]
    exact ⟨same.params ▸ effects.block, effects.told⟩
  · rw [hu, hw]; exact rfl

end Sys2Proof.Machine
end

section
/-! PROOFS. The statements of 70_reset_and_hazards.md: BUSY does not end by itself (R154), and an ENABLE in the wrong byte
order is silently WRITE.NOP (R159). -/

namespace Sys2Proof

/-! ## A word in the wrong byte order -/

/-- The command bits of a word are the low bits of its byte that holds bits 7:0 (R51, R93). -/
theorem extractLsb'_low_byte (v : Word) : (v.extractLsb' 0 8).extractLsb' 0 2 = v.extractLsb' 0 2 := by
  refine BitVec.eq_of_getLsbD_eq fun j hj => ?_
  simp [hj]

/-- A host of the other byte order reads the bytes of ENABLE as a word whose one set bit is bit 24 (R51). -/
theorem wordOf_bytesOf_enable {client host : ByteOrder} (h : client ≠ host) :
    wordOf host (bytesOf client ENABLE) = 0x01000000#32 := by
  cases client with
  | little => cases host with
    | little => exact absurd rfl h
    | big => decide
  | big => cases host with
    | little => decide
    | big => exact absurd rfl h

/-- That word has neither command bit, so the ENABLE decodes to WRITE.NOP (R57, R159). -/
theorem decode_encode_enable {client host : ByteOrder} (h : client ≠ host) (rest : List Byte) :
    decode host (encode client (.writeEnable ENABLE rest)) = .ok (.writeNop 0x01000000#32 rest) := by
  have hword := wordOf_bytesOf_enable h
  have hnop : classOf (wordOf host (bytesOf client ENABLE)) = some .nop := by rw [hword]; decide
  exact hword ▸ decode_write_accept (memRead_unit _ rest) hnop

end Sys2Proof

namespace Sys2Proof.Machine

/-- Settles O9: the low byte holds the command bits, and the misread word is that of a WRITE.NOP, which keeps
`status`. -/
theorem wrongByteOrderEnableIsSilentlyNop : Obligations.WrongByteOrderEnableIsSilentlyNop := by
  refine ⟨fun v => ⟨extractLsb'_low_byte v, extractLsb'_low_byte v⟩, fun client host s r horder hr => ?_⟩
  obtain ⟨t, r', performed, block, -, status, -, -, replied, -⟩ :=
    writeNopOnlyLatchesControl s r 0x01000000#32 [] hr (by decide)
  exact ⟨t, r', decode_encode_enable horder [], performed, block, status, replied⟩

/-! ## The end of BUSY -/

/-- A well-formed accepted WRITE whose word has `rst = 1` is WRITE.RESET or WRITE.ENRST (R57, R93). -/
theorem toInstr_of_reset {c : CommandClass} {v : Word} {rest : List Byte} (hwf : (c.toInstr v rest).WellFormed)
    (hrst : v.getLsbD 1 = true) : c.toInstr v rest = .writeReset v rest ∨ c.toInstr v rest = .writeEnrst v rest := by
  have clears := (clearsCounter_toInstr_iff hwf).mpr hrst
  cases c with
  | nop => simp [ClearsCounter, CommandClass.toInstr] at clears
  | enable => simp [ClearsCounter, CommandClass.toInstr] at clears
  | reset => exact .inl rfl
  | enrst => exact .inr rfl

section busy
variable {s t : State} {r : RegFile} {i : Instr}

/-- An instruction that holds the registers leaves BUSY as it is, and so does a WRITE without RESET: only the others,
WRITE.RESET, WRITE.ENRST and SHUTDOWN, end it (R94, R154). -/
theorem exec_ends_busy (hs : s.block = .alive r) (hbusy : r.status = BUSY) (hwf : i.WellFormed)
    (h : exec i s = .next t) (ends : ∀ r', t.block = .alive r' → r'.status ≠ BUSY) :
    (∃ v rest, (i = .writeReset v rest ∨ i = .writeEnrst v rest) ∧ v.getLsbD 1 = true ∧
      ∃ r', t.block = .alive r' ∧ r'.status = READY) ∨
    (i = .shutdown ∧ t.block = .dead) := by
  obtain ⟨change, -⟩ := exec_next h
  obtain hshutdown | ⟨c, v, rest, rfl, block⟩ | ⟨-, r', block, held⟩ := change.cases_of_alive hs
  · exact .inr hshutdown
  · obtain ⟨hrst, ready⟩ | ⟨-, -, busy⟩ | ⟨-, -, same⟩ := statusMux_cases (commandOf v) r.status
    · exact .inl ⟨v, rest, toInstr_of_reset hwf hrst, hrst, _, block, ready⟩
    · exact absurd busy (ends _ block)
    · exact absurd (same.trans hbusy) (ends _ block)
  · exact absurd (held.status_eq.trans hbusy) (ends r' block)

/-- With the lock free, a step disturbs nothing or serves the granted call. -/
theorem step_next_undisturbed_or_served (hl : s.lock = none) (hstep : step s = .next t) :
    Undisturbed s t ∨ ∃ c u, s.grant = (some c, u) ∧ serve c u = .next t := by
  obtain ⟨c, before, after, hg, -⟩ | ⟨hg, -⟩ := s.grant_cases
  · exact .inr ⟨c, _, hg, step_of_granted hl hg ▸ hstep⟩
  · obtain rfl : State.idle _ = t := by simpa [step_of_no_grant hl hg] using hstep
    exact .inl (.idle s _)

end busy

/-- Settles O38: a step without an operation holds `status`, so a call was served, and the instruction it decodes to
ended BUSY. -/
theorem busyEndsOnlyByResetOrShutdown : Obligations.BusyEndsOnlyByResetOrShutdown := by
  intro s t r hl hs hbusy hstep ends
  obtain idle | ⟨c, u, hg, hserve⟩ := step_next_undisturbed_or_served hl hstep
  · obtain ⟨r', block, held⟩ := idle.block.alive hs
    exact absurd (held.status_eq.trans hbusy) (ends r' block)
  · obtain ⟨granted_block, granted_params, -⟩ := State.grant_frame hg
    obtain ⟨i, w, hdecode, hexec, rfl⟩ := serve_next_iff.mp hserve
    refine ⟨c, u, i, hg, granted_params ▸ hdecode, ?_⟩
    exact exec_ends_busy (s := u.acquire c.caller) (t := w) (granted_block.trans hs) hbusy
      (wellFormed_of_decode hdecode) hexec ends

end Sys2Proof.Machine
end

section
/-! PROOFS. Decoding an encoded instruction gives it back (R50 to R57), the words of 95_test_vectors.md 2.1, the state the
machine starts in (R21), and which call a step serves (R39, R45). -/

namespace Sys2Proof

/-! ## Decode of encode -/

/-- An accepted WRITE carries its command word through its four bytes, and the word selects the class again (R51, R57). -/
theorem CommandClass.decode_encode_toInstr (o : ByteOrder) {c : CommandClass} {v : Word} {rest : List Byte}
    (hwf : (c.toInstr v rest).WellFormed) : decode o (encode o (c.toInstr v rest)) = .ok (c.toInstr v rest) := by
  have hclass : classOf (wordOf o (bytesOf o v)) = some c := by
    rw [wordOf_bytesOf]; exact (c.toInstr_wellFormed_iff v rest).mp hwf
  have accepted := decode_write_accept (memRead_unit (bytesOf o v) rest) hclass
  rwa [wordOf_bytesOf, ← writeRequest_eq, ← c.encode_toInstr] at accepted

/-- Settles O5: the four accepted classes share one round trip, a well-formed WRITE.REJECT is rejected again, and the other
requests stand for themselves. -/
theorem decodeOfEncodeIsTheInstruction : Obligations.DecodeOfEncodeIsTheInstruction := by
  intro o i hwf
  cases i with
  | writeNop v rest => exact CommandClass.decode_encode_toInstr o (c := .nop) hwf
  | writeEnable v rest => exact CommandClass.decode_encode_toInstr o (c := .enable) hwf
  | writeReset v rest => exact CommandClass.decode_encode_toInstr o (c := .reset) hwf
  | writeEnrst v rest => exact CommandClass.decode_encode_toInstr o (c := .enrst) hwf
  | writeReject src readable =>
    exact decode_write_reject o (by simpa [Instr.WellFormed, Instr.wf] using hwf)
  | _ => rfl

/-! ## Words written out -/

/-- Four readable bytes decode to the WRITE of the word they pack to, in that word's class (R51, R57). -/
theorem decode_write_four {o : ByteOrder} {b0 b1 b2 b3 : Byte} {v : Word} (c : CommandClass)
    (hword : wordOf o ⟨b0, b1, b2, b3⟩ = v) (hclass : classOf v = some c) :
    decode o (.write [b0, b1, b2, b3] true) = .ok (c.toInstr v []) := by
  subst hword
  exact decode_write_accept (memRead_cons b0 b1 b2 b3 []) hclass

/-- Settles O2: for each of the accepted words its packing and its class are computed; the three-byte WRITE is short. -/
theorem wordsWrittenOutDecode : Obligations.WordsWrittenOutDecode :=
  ⟨decode_write_four .nop (by decide) (by decide), decode_write_four .nop (by decide) (by decide),
    decode_write_four .enable (by decide) (by decide), decode_write_four .reset (by decide) (by decide),
    decode_write_four .enrst (by decide) (by decide), decode_write_four .enrst (by decide) (by decide),
    decode_write_reject .little (.inl (by decide)), rfl, rfl⟩

end Sys2Proof

namespace Sys2Proof.Machine

/-! ## The starting states -/

/-- The registers after reset are those INIT creates (R21, R70). -/
theorem State.reset_block : State.reset.block = .alive initialRegs := rfl

/-- Settles O1: the step before any other call serves the system's INIT. -/
theorem resetStateIsTheStateAfterInit : Obligations.ResetStateIsTheStateAfterInit := by
  obtain ⟨t, hstep, block, lock, params, schedule, pending⟩ := step_serves_init defaultParams []
  exact ⟨State.reset_block, rfl, rfl, t, hstep, block.trans State.reset_block.symm, lock, params, pending, schedule⟩

/-- Settles O33: INIT creates sound registers, and before INIT there are none. -/
theorem resetMeetsTheInvariant : Obligations.ResetMeetsTheInvariant := by
  refine ⟨⟨rfl, fun r hr => ?_⟩, fun p => .of_absent rfl rfl⟩
  obtain rfl : initialRegs = r := by simpa [State.reset_block] using hr
  exact .initial _

/-! ## The call a step serves -/

theorem callsOf_eq_nil_iff {a : Agent} {calls : List Call} : callsOf a calls = [] ↔ ∀ d ∈ calls, d.caller ≠ a := by
  simp [callsOf]

/-- A served call runs the instruction its request decodes to, inside the critical section (R38). -/
theorem serve_of_decode {c : Call} {s : State} {i : Instr} (h : decode s.params.byteOrder c.request = .ok i) :
    serve c s = leave (exec i (s.acquire c.caller)) := by
  simp [serve, h]

section turn
variable {s : State} {a : Agent} {turns : List Agent}

theorem State.nextCaller_of_turn (hturn : s.schedule = a :: turns) : s.nextCaller = some a := by
  simp [State.nextCaller, hturn]

/-- The agent whose turn it is gets its first waiting call served; the calls before it are other agents' (R39). -/
theorem step_serves_turn {before after : List Call} {c : Call} (hl : s.lock = none)
    (hturn : s.schedule = c.caller :: turns) (hpending : s.pending = before ++ c :: after)
    (hbefore : callsOf c.caller before = []) :
    step s = serve c { s with schedule := turns, pending := before ++ after } := by
  have taken := takeCall_append (callsOf_eq_nil_iff.mp hbefore) (c := c) (after := after) rfl
  refine step_of_granted hl ?_
  simp [State.grant, State.nextCaller_of_turn hturn, hpending, taken, hturn]

/-- A turn of an agent with no waiting call is used up (log 2). -/
theorem step_uses_turn_up (hl : s.lock = none) (hturn : s.schedule = a :: turns)
    (hnone : callsOf a s.pending = []) : step s = .next { s with schedule := turns }.idle := by
  have nothing := takeCall_eq_none.mpr (callsOf_eq_nil_iff.mp hnone)
  refine step_of_no_grant hl ?_
  simp [State.grant, State.nextCaller_of_turn hturn, nothing, hturn]

end turn

/-- With no turn left and no call waiting, a step is idle (R117). -/
theorem step_idle_of_no_call {s : State} (hl : s.lock = none) (hturns : s.schedule = []) (hpending : s.pending = []) :
    step s = .next s.idle :=
  step_of_no_grant hl (by simp [State.grant, State.nextCaller, hturns, hpending])

/-- Settles O3: the agent's first call is served, or it has none and the turn is used up. -/
theorem stepRunsTheDecodedInstruction : Obligations.StepRunsTheDecodedInstruction := by
  intro s a turns hl hturn
  refine ⟨fun before after c i hpending hbefore hc hdecode => ?_, step_uses_turn_up hl hturn⟩
  subst hc
  rw [step_serves_turn hl hturn hpending hbefore]
  exact serve_of_decode hdecode

/-- Settles O4: a lone caller's first call is served, or none waits and the step is idle. -/
theorem stepServesALoneCallerInItsOrder : Obligations.StepServesALoneCallerInItsOrder := by
  intro s hl hturns
  refine ⟨fun c after i hpending hlone hdecode => ?_, step_idle_of_no_call hl hturns⟩
  rw [step_serves_lone_caller hl hturns hpending hlone, ← hturns]
  exact serve_of_decode hdecode

end Sys2Proof.Machine
end
